-- ==== Sys2Proof/Word.lean ====
section
/-! DEFINITION. The machine's value unit and the output channel's byte (spec/00_scope.md R6, R7). -/

namespace Sys2Proof

/-- "an unsigned 16-bit integer, the machine's basic value unit" (R6 WORD_BITS, R11). -/
abbrev Word := BitVec 16

/-- One byte of the program image (20_memory.md R56) or of the output channel (47_io.md R161). -/
abbrev Byte := BitVec 8

end Sys2Proof
end

