-- ==== Sys2Proof/Config.lean ====
section
/-! DEFINITION. The parameters of the hardware with the values this hardware takes (spec/00_scope.md R6), and the two
values the spec leaves open: INPUT_ENCODING and the buffer after a faulting `in`. -/

namespace Sys2Proof.Config

/-- MEM_WORDS: "exactly 32768 words" (R6, 10_state.md R42). -/
@[simp] abbrev memWords : Nat := 32768

/-- ARITH_MOD: the modulus of add and mult (R6). -/
@[simp] abbrev arithMod : Nat := 32768

/-- REG_BASE: the first raw word that names a register (R6). -/
@[simp] abbrev regBase : Nat := 32768

/-- REG_LAST: the last raw word that names a register (R6). -/
@[simp] abbrev regLast : Nat := 32775

/-- The longest instruction in words: one opcode word and MAX_ARITY = 3 operand words (R6). -/
@[simp] abbrev maxWords : Nat := 4

/-- OUT_MAX: the largest value `out` accepts (R6). -/
@[simp] abbrev outMax : Nat := 255

/-- The reset value of the instruction pointer (R6, 10_state.md R30). -/
@[simp] abbrev resetPc : Word := 0

/-- What an address no write has reached reads as: memory is "zero-initialized" (10_state.md R42, 20_memory.md R54). -/
@[simp] abbrev blankWord : Word := 0

/-- STACK_CAPACITY: unbounded, the value R6 gives this hardware; `some k` is the bounded build of 60_exceptions.md R188
(log entry 13). -/
def stackCapacity : Option Nat := none

/-- INPUT_ENCODING, the OPEN map from host characters to 16-bit codes (R6, 47_io.md R166): no value is known (log entry 16). -/
opaque inputEncoding : Char → Word

/-- The pending input buffer after an `in` that faults once its character is taken is "unspecified (any value)"
(47_io.md R162, 60_exceptions.md R173): a free value, a new one for every number (log entry 11). -/
opaque freeBuffer : Nat → List Word

end Sys2Proof.Config
end

