-- ==== Sys2Proof/Operand.lean ====
section
/-! DEFINITION. A raw operand word, sorted into the three classes of spec/30_encoding.md R73. -/

namespace Sys2Proof

/-- A raw operand word by its class, which "depends only on its value, not on the opcode or on the operand's position"
(R73). Nothing is resolved here: a register reference is a name, not a value (log entry 3). -/
inductive Operand where
  /-- a word in [0, 32767], which stands for itself -/
  | literal (v : Word)
  /-- a word in [32768, 32775], which names register `v - 32768` -/
  | register (r : Fin 8)
  /-- a word in [32776, 65535] -/
  | invalid (v : Word)
deriving DecidableEq, Repr

/-- The operand's raw word is in [32776, 65535] (R73). -/
def Operand.isInvalid : Operand → Bool
  | .literal _ => false
  | .register _ => false
  | .invalid _ => true

/-- The operand's raw word is in [32768, 32775], the words a destination may be (R75). -/
def Operand.isRegister : Operand → Bool
  | .literal _ => false
  | .register _ => true
  | .invalid _ => false

end Sys2Proof
end

