-- ==== Sys2Proof/Syntax.lean ====
section
/-! DEFINITION. The 22 instructions of the opcode map (spec/30_encoding.md R77), each with its raw operands in the order
they follow the opcode word (00_scope.md R10). -/

namespace Sys2Proof

/-- One constructor per row of the opcode map (R77). `in_` is the row `in`, a word Lean keeps for itself. -/
inductive Instr where
  | halt
  | set (a b : Operand)
  | push (a : Operand)
  | pop (a : Operand)
  | eq (a b c : Operand)
  | gt (a b c : Operand)
  | jmp (a : Operand)
  | jt (a b : Operand)
  | jf (a b : Operand)
  | add (a b c : Operand)
  | mult (a b c : Operand)
  | mod (a b c : Operand)
  | and (a b c : Operand)
  | or (a b c : Operand)
  | not (a b : Operand)
  | rmem (a b : Operand)
  | wmem (a b : Operand)
  | call (a : Operand)
  | ret
  | out (a : Operand)
  | in_ (a : Operand)
  | noop
deriving DecidableEq, Repr

end Sys2Proof
end

