-- ==== Sys2Proof/WellFormed.lean ====
section
/-! DEFINITION. Which terms of Instr stand for words of memory: an operand's word must lie in its class's range
(spec/30_encoding.md R73). Every operand word is allowed in every position: "The decoder itself never rejects an operand
word" (R79). -/

namespace Sys2Proof

/-- A literal is at most 32767 and an invalid word at least 32776 (R73); a register name is in range by its type. -/
def Operand.wf : Operand → Bool
  | .literal v => decide (v.toNat < Config.regBase)
  | .register _ => true
  | .invalid v => decide (Config.regLast < v.toNat)

/-- The operands in the order a, b, c of the instruction's words (R71, 00_scope.md R10). -/
def Instr.operands : Instr → List Operand
  | .halt => []
  | .set a b => [a, b]
  | .push a => [a]
  | .pop a => [a]
  | .eq a b c => [a, b, c]
  | .gt a b c => [a, b, c]
  | .jmp a => [a]
  | .jt a b => [a, b]
  | .jf a b => [a, b]
  | .add a b c => [a, b, c]
  | .mult a b c => [a, b, c]
  | .mod a b c => [a, b, c]
  | .and a b c => [a, b, c]
  | .or a b c => [a, b, c]
  | .not a b => [a, b]
  | .rmem a b => [a, b]
  | .wmem a b => [a, b]
  | .call a => [a]
  | .ret => []
  | .out a => [a]
  | .in_ a => [a]
  | .noop => []

/-- Every operand's word lies in its class's range. -/
def Instr.wf (i : Instr) : Bool := i.operands.all Operand.wf

/-- The instruction's length in words, 1 + arity (R70, R81). -/
def Instr.length (i : Instr) : Nat := 1 + i.operands.length

end Sys2Proof
end

