-- ==== Sys2Proof/Decode.lean ====
section
/-! DEFINITION. The decoder, total on any list of words, and the encoder (spec/30_encoding.md R70 to R81). -/

namespace Sys2Proof

/-- Why a list of words is no instruction. -/
inductive DecodeError where
  /-- there is no opcode word -/
  | noOpcode
  /-- the opcode word is in [22, 65535] (R78) -/
  | invalidOpcode
  /-- the words end before the opcode's operand words do -/
  | missingOperand
deriving DecidableEq, Repr

/-- The class of a raw operand word (R73). -/
def Operand.ofWord (v : Word) : Operand :=
  if v.toNat < Config.regBase then .literal v
  else if h : v.toNat ≤ Config.regLast then .register ⟨v.toNat - Config.regBase, by simp at h ⊢; omega⟩
  else .invalid v

/-- The raw word of an operand: register r is named by 32768 + r (10_state.md R21). -/
def Operand.toWord : Operand → Word
  | .literal v => v
  | .register r => BitVec.ofNat 16 (Config.regBase + r.val)
  | .invalid v => v

/-- The "compile-time table mapping opcode number to a fixed arity": rule R77's Args column, opcode 0 first (R81). -/
def arityTable : List Nat := [0, 2, 1, 1, 3, 3, 1, 2, 2, 3, 3, 3, 3, 3, 2, 2, 2, 1, 0, 1, 1, 0]

/-- The fixed arity of an opcode word; none for a word with no defined operation (R72, R78). -/
def arity? (op : Word) : Option Nat := arityTable[op.toNat]?

/-- Format W1: the word after the opcode is a (R71). -/
def formatW1 (mk : Operand → Instr) : List Word → Except DecodeError (Instr × List Word)
  | a :: rest => .ok (mk (.ofWord a), rest)
  | [] => .error .missingOperand

/-- Format W2: the words after the opcode are a, b (R71). -/
def formatW2 (mk : Operand → Operand → Instr) : List Word → Except DecodeError (Instr × List Word)
  | a :: b :: rest => .ok (mk (.ofWord a) (.ofWord b), rest)
  | _ => .error .missingOperand

/-- Format W3: the words after the opcode are a, b, c (R71). -/
def formatW3 (mk : Operand → Operand → Operand → Instr) : List Word → Except DecodeError (Instr × List Word)
  | a :: b :: c :: rest => .ok (mk (.ofWord a) (.ofWord b) (.ofWord c), rest)
  | _ => .error .missingOperand

/-- The operation an opcode number selects, and its format (R72, R77); 22 and above are refused (R78) before any operand
word is looked at (40_fetch_dispatch.md R102). -/
def decodeOp (op : Nat) (rest : List Word) : Except DecodeError (Instr × List Word) :=
  match op with
  | 0 => .ok (.halt, rest)
  | 1 => formatW2 .set rest
  | 2 => formatW1 .push rest
  | 3 => formatW1 .pop rest
  | 4 => formatW3 .eq rest
  | 5 => formatW3 .gt rest
  | 6 => formatW1 .jmp rest
  | 7 => formatW2 .jt rest
  | 8 => formatW2 .jf rest
  | 9 => formatW3 .add rest
  | 10 => formatW3 .mult rest
  | 11 => formatW3 .mod rest
  | 12 => formatW3 .and rest
  | 13 => formatW3 .or rest
  | 14 => formatW2 .not rest
  | 15 => formatW2 .rmem rest
  | 16 => formatW2 .wmem rest
  | 17 => formatW1 .call rest
  | 18 => .ok (.ret, rest)
  | 19 => formatW1 .out rest
  | 20 => formatW1 .in_ rest
  | 21 => .ok (.noop, rest)
  | _ => .error .invalidOpcode

/-- The instruction at the head of a list of words and the words after it, or why there is none. -/
def decode : List Word → Except DecodeError (Instr × List Word)
  | [] => .error .noOpcode
  | op :: rest => decodeOp op.toNat rest

/-- The opcode number (R77, column "opcode"). -/
def Instr.opcode : Instr → Word
  | .halt => 0
  | .set _ _ => 1
  | .push _ => 2
  | .pop _ => 3
  | .eq _ _ _ => 4
  | .gt _ _ _ => 5
  | .jmp _ => 6
  | .jt _ _ => 7
  | .jf _ _ => 8
  | .add _ _ _ => 9
  | .mult _ _ _ => 10
  | .mod _ _ _ => 11
  | .and _ _ _ => 12
  | .or _ _ _ => 13
  | .not _ _ => 14
  | .rmem _ _ => 15
  | .wmem _ _ => 16
  | .call _ => 17
  | .ret => 18
  | .out _ => 19
  | .in_ _ => 20
  | .noop => 21

/-- The words of an instruction: its opcode word, then its operand words in order (R70, R71). -/
def encode (i : Instr) : List Word := i.opcode :: i.operands.map Operand.toWord

/-- The words of a table word: bits 15..0 are the first word, 31..16 the second and so on, every bit from `nbits` up 0,
as many words as the longest instruction has. -/
def tableWords (nbits w : Nat) : List Word :=
  (List.range Config.maxWords).map fun k => BitVec.ofNat 16 (w % 2 ^ nbits / 65536 ^ k)

/-- What the decoder reads from a table word. -/
def decodeTableWord (nbits w : Nat) : Option Instr :=
  match decode (tableWords nbits w) with
  | .ok (i, _) => some i
  | .error _ => none

end Sys2Proof
end

