-- ==== Sys2Proof/Machine/State.lean ====
section
/-! DEFINITION. The state of the core (spec/10_state.md R20), the host's side of its channel as data, and the state right
after reset. -/

namespace Sys2Proof.Machine

/-- The fault kinds of the core, exactly those of 60_exceptions.md R170. -/
inductive FaultKind where
  | loadError
  | invalidOpcode
  | invalidOperand
  | invalidDestination
  | stackUnderflow
  | addressOutOfRange
  | divideByZero
  | ioError
  | stackOverflow
deriving DecidableEq, Repr

/-- The run status (10_state.md R38). -/
inductive RunStatus where
  /-- the dispatcher loop runs -/
  | running
  /-- ended by halt or by ret on an empty stack; terminal, a success -/
  | halted
  /-- ended by a fatal error; terminal; the kind and the address of the faulting instruction's opcode word (60_exceptions.md R174) -/
  | faulted (kind : FaultKind) (faultIP : Word)
deriving DecidableEq, Repr

/-- The host's answer to one line request (60_exceptions.md R182, 47_io.md R164). A line has at least one code, so it is
its first code and the others (log entry 19). -/
inductive LineAnswer where
  | line (first : Word) (others : List Word)
  | endOfStream
  | channelError
deriving DecidableEq, Repr

/-- The host's answer to one output byte (60_exceptions.md R182). -/
inductive OutputAnswer where
  | ok
  | channelError
deriving DecidableEq, Repr

/-- Memory: the (address, word) pairs of the words that are not 0, addresses strictly rising. The unit of addressing is
the 16-bit word (20_memory.md R50, R55; log entry 1). The form is `Memory.wf` of Machine/Ops.lean. -/
abbrev Memory := List (Nat × Word)

/-- Every piece of state of the core (10_state.md R20), then the host's side of the channel, then the model's own counter. -/
structure State where
  /-- the register file x[0..7] (R21) -/
  regs : Vector Word 8
  /-- the instruction pointer, in [0, 32768] (R27) -/
  pc : Word
  /-- memory M (R42) -/
  mem : Memory
  /-- the call stack S, top at the end (R31) -/
  stack : List Word
  /-- the pending input buffer B, next character first (R36) -/
  inputBuf : List Word
  /-- the run status (R38) -/
  status : RunStatus
  /-- host: the answers to coming line requests given so far, next first (log entry 8) -/
  lineAnswers : List LineAnswer
  /-- host: the answers to coming output bytes decided so far, next first; one that is not listed is ok (log entry 9) -/
  outAnswers : List OutputAnswer
  /-- host: the bytes emitted so far, in program order (47_io.md R161, log entry 10) -/
  output : List Byte
  /-- the MODEL's own: how many free values have been taken (log entry 11) -/
  freeCount : Nat
deriving DecidableEq, Repr

/-- Reasons a step could stop outside the machine's own state. There is none: every fault of the spec is a status the
machine itself holds (10_state.md R38, 60_exceptions.md R172), so taking one is a next state (log entry 5), and a
terminal or waiting core keeps its state (log entries 6 and 7). Nobody raises one; safe. -/
inductive Fault where
deriving DecidableEq, Repr

/-- Reasons the model has no meaning for an instruction. -/
inductive Refusal where
  /-- An arm of exec whose instruction has no meaning yet; no arm is in that case, so nobody raises it. It would be safe:
  the model stops where the hardware goes on. -/
  | notModelled (mnemonic : String)
deriving DecidableEq, Repr

/-- What a meaning answers. -/
abbrev Result := Host.Outcome State Fault Refusal

/-- The state right after reset with no image word loaded: every element of 70_reset_and_hazards.md R200 at its reset
value, memory all zero (R204, the image of 0 bytes; `boot` of Machine/Loader.lean is the reset after any image). The
host has given no answer yet (log entries 8, 9, 10) and no free value has been taken (log entry 11). -/
def State.reset : State where
  regs := Vector.replicate 8 0
  pc := Config.resetPc
  mem := []
  stack := []
  inputBuf := []
  status := .running
  lineAnswers := []
  outAnswers := []
  output := []
  freeCount := 0

end Sys2Proof.Machine
end

