-- ==== Sys2Proof/Machine/Ops.lean ====
section
/-! DEFINITION. The named operations over memory, registers, stack and status that every meaning is written with, taking a
fault among them, and the fetch unit. -/

namespace Sys2Proof.Machine

/-! ### Memory (20_memory.md) -/

/-- The word at an address: "addresses beyond the loaded program's length are ... readable as zero" (R54). -/
def Memory.readWord : Memory → Nat → Word
  | [], _ => Config.blankWord
  | (b, w) :: rest, a => if a = b then w else Memory.readWord rest a

/-- Put a word before the listed ones, unless it is what an unlisted address reads as. -/
def Memory.cons (a : Nat) (v : Word) (m : Memory) : Memory :=
  if v = Config.blankWord then m else (a, v) :: m

/-- Store a word, keeping the addresses rising and no zero listed. -/
def Memory.writeWord : Memory → Nat → Word → Memory
  | [], a, v => Memory.cons a v []
  | (b, w) :: rest, a, v =>
    if a < b then Memory.cons a v ((b, w) :: rest)
    else if a = b then Memory.cons a v rest
    else (b, w) :: Memory.writeWord rest a v

/-- The canonical form from a lowest address on: addresses strictly rising and below 32768, no listed zero. -/
def Memory.wfFrom : Nat → Memory → Bool
  | _, [] => true
  | lo, (a, w) :: rest =>
    decide (lo ≤ a) && decide (a < Config.memWords) && decide (w ≠ Config.blankWord) && Memory.wfFrom (a + 1) rest

/-- Memory has its canonical form, so that equal memories are equal data. -/
def Memory.wf (m : Memory) : Bool := Memory.wfFrom 0 m

/-- Lay words out at rising addresses from `a` on, listing no zero: an image's words in memory (R52). -/
def Memory.ofWords (a : Nat) : List Word → Memory
  | [] => []
  | w :: ws => Memory.cons a w (Memory.ofWords (a + 1) ws)

/-- Store words at rising addresses from `a` on, those below 32768. -/
def Memory.writeWords (m : Memory) (a : Nat) : List Word → Memory
  | [] => m
  | w :: ws => Memory.writeWords (if a < Config.memWords then m.writeWord a w else m) (a + 1) ws

/-- At most `n` words from address `a` on, ending at the end of memory. -/
def Memory.wordsFrom (m : Memory) (a : Nat) : Nat → List Word
  | 0 => []
  | n + 1 => if a < Config.memWords then m.readWord a :: Memory.wordsFrom m (a + 1) n else []

/-! ### Registers and the instruction pointer (10_state.md) -/

/-- `x[r]`: "Reads have no side effect" (R22); no register is hardwired (R24). -/
def State.readReg (s : State) (r : Fin 8) : Word := s.regs[r]

/-- `x[r] <- v` (00_scope.md R8). -/
def State.writeReg (s : State) (r : Fin 8) (v : Word) : State := { s with regs := s.regs.set r v }

/-- The dispatcher's sequential advance past the `n` words of the instruction (R28; 40_fetch_dispatch.md R103). -/
def State.advance (s : State) (n : Nat) : State := { s with pc := s.pc + BitVec.ofNat 16 n }

/-- `pc <- t` (00_scope.md R8). -/
def State.setPc (s : State) (t : Word) : State := { s with pc := t }

/-! ### The access primitives (20_memory.md R53) -/

/-- `MemRead(addr, 1)`: range-checked. -/
def memRead (s : State) (addr : Word) : Except FaultKind Word :=
  if addr.toNat < Config.memWords then .ok (s.mem.readWord addr.toNat) else .error .addressOutOfRange

/-- M[a] <- v, with no check. -/
def State.storeWord (s : State) (a : Nat) (v : Word) : State := { s with mem := s.mem.writeWord a v }

/-- `MemWrite(addr, 1, v)`: range-checked. -/
def memWrite (s : State) (addr v : Word) : Except FaultKind State :=
  if addr.toNat < Config.memWords then .ok (s.storeWord addr.toNat v) else .error .addressOutOfRange

/-- Go to a target: valid in [0, 32767], else AddressOutOfRange (44_control_transfer.md R140). -/
def jumpTo (s : State) (t : Word) : Except FaultKind State :=
  if t.toNat < Config.memWords then .ok (s.setPc t) else .error .addressOutOfRange

/-! ### The call stack (10_state.md R31 to R34) -/

/-- S <- st. -/
def State.setStack (s : State) (st : List Word) : State := { s with stack := st }

/-- A bounded stack is full when it holds its capacity (60_exceptions.md R188); an unbounded one never is. -/
def stackFull (capacity : Option Nat) (s : State) : Bool :=
  match capacity with
  | none => false
  | some k => decide (k ≤ s.stack.length)

/-- `Push(v)` "appends v" (R32); StackOverflow on a full bounded stack (60_exceptions.md R188). -/
def pushWord (capacity : Option Nat) (s : State) (v : Word) : Except FaultKind State :=
  if stackFull capacity s then .error .stackOverflow else .ok (s.setStack (s.stack ++ [v]))

/-- `Pop()` "removes and returns the last element"; StackUnderflow when there is none (R33). -/
def popWord (s : State) : Except FaultKind (Word × State) :=
  match s.stack.getLast? with
  | none => .error .stackUnderflow
  | some v => .ok (v, s.setStack s.stack.dropLast)

/-! ### Ending a step -/

/-- The status Halted (10_state.md R38). -/
def State.enterHalted (s : State) : State := { s with status := .halted }

/-- TAKING A FAULT, `raise kind` (60_exceptions.md R172 to R174): the status becomes Faulted(kind, p), p the pc before the
step, and nothing else changes. `s` is the state before the step. There is no vector, no saved register and no return from
a fault (R176). -/
def State.takeFault (s : State) (kind : FaultKind) : State := { s with status := .faulted kind s.pc }

/-- The state a step ends in: what the handler made, or the state before the step with the fault taken (R173: precise). -/
def settle (s : State) : Except FaultKind State → State
  | .ok t => t
  | .error kind => s.takeFault kind

/-- The outcome of an instruction's handler, run from the state before the step: always a next state. -/
def complete (s : State) (handler : Except FaultKind State) : Result := .next (settle s handler)

/-- The numeric codes of the fault kinds, labels only (60_exceptions.md R170, 92_eei_decisions.md D10). -/
def FaultKind.code : FaultKind → Nat
  | .loadError => 1
  | .invalidOpcode => 2
  | .invalidOperand => 3
  | .invalidDestination => 4
  | .stackUnderflow => 5
  | .addressOutOfRange => 6
  | .divideByZero => 7
  | .ioError => 8
  | .stackOverflow => 9

/-! ### The fetch unit (40_fetch_dispatch.md R101 to R103, R111) -/

/-- The instruction at `p`, a pure function of memory and `p` (R111). No word at `p`: AddressOutOfRange (R101). No
operation for the opcode: InvalidOpcode (R102). Memory ends before the operand words do: AddressOutOfRange (R103). -/
def fetch (m : Memory) (p : Word) : Except FaultKind Instr :=
  match decode (m.wordsFrom p.toNat Config.maxWords) with
  | .ok (i, _) => .ok i
  | .error .noOpcode => .error .addressOutOfRange
  | .error .invalidOpcode => .error .invalidOpcode
  | .error .missingOperand => .error .addressOutOfRange

end Sys2Proof.Machine
end

