-- ==== Sys2Proof/Machine/Operands.lean ====
section
/-! DEFINITION. The operand forms: the resolver of source operands, the destination write, and the two shapes of
register-writing instruction built from them (spec/40_fetch_dispatch.md R104 to R106). -/

namespace Sys2Proof.Machine

/-- `Resolve(v)`: a literal is itself, a register reference its register's value, an invalid word InvalidOperand (R104). It
reads state and changes none. -/
def resolve (s : State) : Operand → Except FaultKind Word
  | .literal v => .ok v
  | .register r => .ok (s.readReg r)
  | .invalid _ => .error .invalidOperand

/-- `WriteDest(a, v)`: a destination is never resolved; it must be a register reference, and the value is stored unchanged
(R105). -/
def writeDest (s : State) (a : Operand) (v : Word) : Except FaultKind State :=
  match a with
  | .register r => .ok (s.writeReg r v)
  | .literal _ => .error .invalidDestination
  | .invalid _ => .error .invalidDestination

/-- The shape `a b`, format W2: resolve b, compute, write a. -/
def unaryOp (f : Word → Except FaultKind Word) (a b : Operand) (s : State) : Except FaultKind State := do
  let vb ← resolve s b
  let v ← f vb
  writeDest (s.advance 3) a v

/-- The shape `a b c`, format W3: resolve b and c, compute, write a. The sources are read before the write. -/
def binaryOp (f : Word → Word → Except FaultKind Word) (a b c : Operand) (s : State) : Except FaultKind State := do
  let vb ← resolve s b
  let vc ← resolve s c
  let v ← f vb vc
  writeDest (s.advance 4) a v

end Sys2Proof.Machine
end

