-- ==== Sys2Proof/Machine/Flags.lean ====
section
/-! DEFINITION. The core has no flags (spec/10_state.md R40): "eq and gt write their Boolean result (1 or 0) to a general
register; jt and jf test a resolved operand for zero". These two are all the flag computation there is. -/

namespace Sys2Proof.Machine

/-- The Boolean result of eq and gt as a word: 1 or 0 (R40). -/
def boolWord (p : Bool) : Word := if p then 1 else 0

/-- The test of jt and jf: "Only the exact value 0 is false" (44_control_transfer.md R136, R137). -/
def isNonzero (v : Word) : Bool := decide (v ≠ 0)

end Sys2Proof.Machine
end

