-- ==== Sys2Proof/Machine/Alu.lean ====
section
/-! DEFINITION. add, mult, mod, and, or and not (spec/45_alu.md): exact unsigned arithmetic, reduced only where the
opcode's row states the modulus (R145). -/

namespace Sys2Proof.Machine

/-- Exact sum, reduced modulo 32768 (R146). -/
def addWords (x y : Word) : Word := BitVec.ofNat 16 ((x.toNat + y.toNat) % Config.arithMod)

/-- Exact product, reduced modulo 32768 (R147). -/
def multWords (x y : Word) : Word := BitVec.ofNat 16 (x.toNat * y.toNat % Config.arithMod)

/-- Exact unsigned remainder, not reduced further; a zero divisor raises DivideByZero (R148). -/
def modWords (x y : Word) : Except FaultKind Word :=
  if y.toNat = 0 then .error .divideByZero else .ok (BitVec.ofNat 16 (x.toNat % y.toNat))

/-- `NOT16(v) AND 0x7FFF`, the 15-bit complement (R151). -/
def notWord (x : Word) : Word := ~~~x &&& 0x7FFF

/-- `add a b c` (R146). -/
def execAdd (a b c : Operand) (s : State) : Result := complete s (binaryOp (fun x y => .ok (addWords x y)) a b c s)

/-- `mult a b c` (R147). -/
def execMult (a b c : Operand) (s : State) : Result := complete s (binaryOp (fun x y => .ok (multWords x y)) a b c s)

/-- `mod a b c` (R148). -/
def execMod (a b c : Operand) (s : State) : Result := complete s (binaryOp modWords a b c s)

/-- `and a b c` (R149): 16-bit bitwise AND, no reduction. -/
def execAnd (a b c : Operand) (s : State) : Result := complete s (binaryOp (fun x y => .ok (x &&& y)) a b c s)

/-- `or a b c` (R150): 16-bit bitwise OR, no reduction. -/
def execOr (a b c : Operand) (s : State) : Result := complete s (binaryOp (fun x y => .ok (x ||| y)) a b c s)

/-- `not a b` (R151). -/
def execNot (a b : Operand) (s : State) : Result := complete s (unaryOp (fun x => .ok (notWord x)) a b s)

end Sys2Proof.Machine
end

