-- ==== Sys2Proof/Machine/CharIO.lean ====
section
/-! DEFINITION. out and in, and the channel they reach (spec/47_io.md). -/

namespace Sys2Proof.Machine

/-! ### Output (R160, R161) -/

/-- The byte `out a` offers the channel: InvalidOperand if the resolved value is above 255 (R160). -/
def outByte (s : State) (a : Operand) : Except FaultKind Byte := do
  let v ← resolve s a
  if v.toNat ≤ Config.outMax then .ok (BitVec.ofNat 8 v.toNat) else .error .invalidOperand

/-- The host's answer to the next output byte; one it has not listed is ok (log entry 9). -/
def State.outputAnswer (s : State) : OutputAnswer := s.outAnswers.headD .ok

/-- The next output answer has been given: there is one for every byte (60_exceptions.md R182). -/
def State.takeOutputAnswer (s : State) : State := { s with outAnswers := s.outAnswers.tail }

/-- The byte joins the sequence the host sees (R161). -/
def State.emitByte (s : State) (v : Byte) : State := { s with output := s.output ++ [v] }

/-- `Emit(v)` by an instruction of format W1: the byte goes out and pc advances, or the channel fails and nothing is emitted
(R161). -/
def emit (s : State) (v : Byte) : State :=
  match s.outputAnswer with
  | .ok => (s.takeOutputAnswer.emitByte v).advance 2
  | .channelError => s.takeOutputAnswer.takeFault .ioError

/-- The state after `out a`. -/
def outEffect (a : Operand) (s : State) : State :=
  match outByte s a with
  | .ok v => emit s v
  | .error kind => s.takeFault kind

/-- `out a` (R160). -/
def execOut (a : Operand) (s : State) : Result := .next (outEffect a s)

/-! ### Input (R162 to R165) -/

/-- What `NextInputChar()` comes to. -/
inductive InputResult where
  /-- the buffer is empty and the host has not answered: the core waits (60_exceptions.md R184) -/
  | wait
  /-- end of stream or a channel error, with the buffer empty (R164, R165) -/
  | failed (s : State)
  /-- a character, and the state with it taken -/
  | char (ch : Word) (s : State)
deriving DecidableEq, Repr

/-- B <- buf, with the host's remaining line answers. -/
def State.setInput (s : State) (buf : List Word) (answers : List LineAnswer) : State :=
  { s with inputBuf := buf, lineAnswers := answers }

/-- `NextInputChar()` (R164): the first buffered character, after one line request if the buffer is empty. -/
def nextInputChar (s : State) : InputResult :=
  match s.inputBuf, s.lineAnswers with
  | ch :: buf, answers => .char ch (s.setInput buf answers)
  | [], .line ch buf :: answers => .char ch (s.setInput buf answers)
  | [], .endOfStream :: answers => .failed (s.setInput [] answers)
  | [], .channelError :: answers => .failed (s.setInput [] answers)
  | [], [] => .wait

/-- The buffer is unspecified after an `in` that faults once its character is taken (R162, 60_exceptions.md R173): a free
value, never used before (log entry 11). -/
def State.freeInput (s : State) : State :=
  { s with inputBuf := Config.freeBuffer s.freeCount, freeCount := s.freeCount + 1 }

/-- `WriteDest(a, ch)` at the end of an `in`, from the state with the character taken. The character is gone even if the
write faults (60_exceptions.md R173). -/
def deliverChar (s : State) (a : Operand) (ch : Word) : State :=
  match writeDest (s.advance 2) a ch with
  | .ok t => t
  | .error kind => s.freeInput.takeFault kind

/-- The state after `in a`; a wait changes nothing (60_exceptions.md R184, log entry 7). -/
def inEffect (a : Operand) (s : State) : State :=
  match nextInputChar s with
  | .wait => s
  | .failed t => t.takeFault .ioError
  | .char ch t => deliverChar t a ch

/-- `in a` (R162). -/
def execIn (a : Operand) (s : State) : Result := .next (inEffect a s)

end Sys2Proof.Machine
end

