-- ==== Sys2Proof/Machine/Compare.lean ====
section
/-! DEFINITION. eq and gt (spec/43_compare.md): both compare resolved words as unsigned integers. -/

namespace Sys2Proof.Machine

/-- `eq a b c` (R130): 1 if the resolved words are equal, else 0. -/
def execEq (a b c : Operand) (s : State) : Result :=
  complete s (binaryOp (fun x y => .ok (boolWord (decide (x = y)))) a b c s)

/-- `gt a b c` (R131): 1 if b is greater than c, unsigned, else 0. -/
def execGt (a b c : Operand) (s : State) : Result :=
  complete s (binaryOp (fun x y => .ok (boolWord (decide (y.toNat < x.toNat)))) a b c s)

end Sys2Proof.Machine
end

