-- ==== Sys2Proof/Machine/Control.lean ====
section
/-! DEFINITION. halt and noop (spec/41_machine_control.md). -/

namespace Sys2Proof.Machine

/-- `halt` (R120): the status becomes Halted; pc stays at p + 1. -/
def execHalt (s : State) : Result := complete s (.ok (s.advance 1).enterHalted)

/-- `noop` (R121): only the advance to p + 1. -/
def execNoop (s : State) : Result := complete s (.ok (s.advance 1))

end Sys2Proof.Machine
end

