-- ==== Sys2Proof/Machine/DataStack.lean ====
section
/-! DEFINITION. set, push and pop (spec/42_data_stack.md). -/

namespace Sys2Proof.Machine

/-- `set a b` (R125): `v <- Resolve(b); WriteDest(a, v)`. -/
def execSet (a b : Operand) (s : State) : Result := complete s (unaryOp .ok a b s)

/-- `push a` (R126) in a build whose stack holds `capacity` words: `v <- Resolve(a); Push(v)`. -/
def pushHandler (capacity : Option Nat) (a : Operand) (s : State) : Except FaultKind State := do
  let v ← resolve s a
  pushWord capacity (s.advance 2) v

/-- `push a` (R126) in this hardware. -/
def execPush (a : Operand) (s : State) : Result := complete s (pushHandler Config.stackCapacity a s)

/-- `pop a` (R127): StackUnderflow on an empty stack, else `v <- Pop(); WriteDest(a, v)`. -/
def popHandler (a : Operand) (s : State) : Except FaultKind State := do
  let (v, t) ← popWord (s.advance 2)
  writeDest t a v

/-- `pop a` (R127). -/
def execPop (a : Operand) (s : State) : Result := complete s (popHandler a s)

end Sys2Proof.Machine
end

