-- ==== Sys2Proof/Machine/MemoryAccess.lean ====
section
/-! DEFINITION. rmem and wmem (spec/46_memory_access.md): the effective address is the resolved address operand (R157). -/

namespace Sys2Proof.Machine

/-- `rmem a b` (R155): `ea <- Resolve(b); v <- MemRead(ea, 1); WriteDest(a, v)`. -/
def execRmem (a b : Operand) (s : State) : Result := complete s (unaryOp (memRead s) a b s)

/-- `wmem a b` (R156): `ea <- Resolve(a); v <- Resolve(b); MemWrite(ea, 1, v)`. -/
def wmemHandler (a b : Operand) (s : State) : Except FaultKind State := do
  let ea ← resolve s a
  let v ← resolve s b
  memWrite (s.advance 3) ea v

/-- `wmem a b` (R156). -/
def execWmem (a b : Operand) (s : State) : Result := complete s (wmemHandler a b s)

end Sys2Proof.Machine
end

