-- ==== Sys2Proof/Machine/Transfer.lean ====
section
/-! DEFINITION. jmp, jt, jf, call and ret (spec/44_control_transfer.md). Every target is resolved and range-checked (R140). -/

namespace Sys2Proof.Machine

/-- Resolve a target operand and go there (R140). -/
def jumpOperand (s : State) (b : Operand) : Except FaultKind State := do
  let t ← resolve s b
  jumpTo s t

/-- `jmp a` (R135). -/
def execJmp (a : Operand) (s : State) : Result := complete s (jumpOperand (s.advance 2) a)

/-- The conditional jumps, format W2: resolve a; go to b if the test holds, else let the advanced pc stand and
leave b unexamined (R136, R137). -/
def branchHandler (taken : Word → Bool) (a b : Operand) (s : State) : Except FaultKind State := do
  let v ← resolve s a
  if taken v then jumpOperand (s.advance 3) b else .ok (s.advance 3)

/-- `jt a b` (R136): go if a is not 0. -/
def execJt (a b : Operand) (s : State) : Result := complete s (branchHandler isNonzero a b s)

/-- `jf a b` (R137): go if a is 0. -/
def execJf (a b : Operand) (s : State) : Result := complete s (branchHandler (fun v => !isNonzero v) a b s)

/-- `call a` (R138) in a build whose stack holds `capacity` words: the target is resolved and checked, then the address
after the instruction is pushed (60_exceptions.md R175 fixes that order). -/
def callHandler (capacity : Option Nat) (a : Operand) (s : State) : Except FaultKind State := do
  let u ← jumpOperand (s.advance 2) a
  pushWord capacity u (s.advance 2).pc

/-- `call a` (R138) in this hardware. -/
def execCall (a : Operand) (s : State) : Result := complete s (callHandler Config.stackCapacity a s)

/-- `ret` (R139) on a stack that is not empty: pop the target, AddressOutOfRange if it is 32768 or more. -/
def retHandler (s : State) : Except FaultKind State := do
  let (t, u) ← popWord (s.advance 1)
  jumpTo u t

/-- `ret` (R139): an empty stack halts with pc = p + 1, a success and no error. -/
def execRet (s : State) : Result :=
  complete s (if s.stack = [] then .ok (s.advance 1).enterHalted else retHandler s)

end Sys2Proof.Machine
end

