-- ==== Sys2Proof/Machine/Step.lean ====
section
/-! DEFINITION. One step: fetch, decode, execute (spec/40_fetch_dispatch.md R100, R109). -/

namespace Sys2Proof.Machine

/-- One step of the core. While the status is Running it fetches the instruction at pc and runs its meaning, or takes the
fetch's fault at pc. "When the status is Halted or Faulted the core takes no further step" (R100): the state stays as it is
(log entry 6). -/
def step (s : State) : Host.Outcome State Fault Refusal :=
  match s.status with
  | .running =>
    match fetch s.mem s.pc with
    | .ok i => exec i s
    | .error kind => .next (s.takeFault kind)
  | .halted => .next s
  | .faulted _ _ => .next s

/-- `s` with the words of a table word stored where the next step fetches, and running so that it does fetch (log entry 14). -/
def State.withFetchWord (s : State) (nbits w : Nat) : State :=
  { s with mem := s.mem.writeWords s.pc.toNat (tableWords nbits w), status := .running }

end Sys2Proof.Machine
end

