-- ==== Sys2Proof/Machine/HostInterface.lean ====
section
/-! DEFINITION. What the host does to the core between steps (spec/60_exceptions.md R182, R183). It never reads or writes
registers, memory, the stack or pc during a run. -/

namespace Sys2Proof.Machine

/-- The host gives its answer to a line request, after those it has given before (R182). -/
def State.deliverLine (s : State) (answer : LineAnswer) : State := { s with lineAnswers := s.lineAnswers ++ [answer] }

/-- The host decides its answer to a coming output byte (R182). -/
def State.answerOutput (s : State) (answer : OutputAnswer) : State := { s with outAnswers := s.outAnswers ++ [answer] }

/-- A line of host text as its codes, under INPUT_ENCODING (47_io.md R166). A final line may have no newline (R165). -/
def lineOfText (encoding : Char → Word) (first : Char) (others : List Char) : LineAnswer :=
  .line (encoding first) (others.map encoding)

/-- The host's channel delivers a line of text: its characters go through this hardware's INPUT_ENCODING. -/
def State.deliverText (s : State) (first : Char) (others : List Char) : State :=
  s.deliverLine (lineOfText Config.inputEncoding first others)

/-- The core stands at an unanswered line request: it runs, the instruction at pc is an `in`, the buffer is empty and the
host has not answered (R184). -/
def State.awaitsLine (s : State) : Bool :=
  match s.status, fetch s.mem s.pc, s.inputBuf, s.lineAnswers with
  | .running, .ok (.in_ _), [], [] => true
  | _, _, _, _ => false

end Sys2Proof.Machine
end

