-- ==== Sys2Proof/Machine/Loader.lean ====
section
/-! DEFINITION. The Program Loader and the boot sequence (spec/70_reset_and_hazards.md R201 to R203). -/

namespace Sys2Proof.Machine

/-- Word k of the image is `byte[2k] + 256 * byte[2k+1]` (20_memory.md R56). -/
def littleEndian (lo hi : Byte) : Word := BitVec.ofNat 16 (lo.toNat + 256 * hi.toNat)

/-- The image's words in order; none if the byte count is odd (R202). -/
def imageWords : List Byte → Option (List Word)
  | [] => some []
  | [_] => none
  | lo :: hi :: rest => (imageWords rest).map (littleEndian lo hi :: ·)

/-- The outcome of a load that fails: Faulted(LoadError, 0), no instruction runs (R203). The other elements are as step 1 of
the boot sequence creates them (R201, log entry 15). -/
def loadFailed : State := { State.reset with status := .faulted .loadError 0 }

/-- The boot sequence on the host's image (R201, R202): the reset state with the image's words at address 0 on, or the
failed load if the byte count is odd or there are more than 32768 words. -/
def boot (image : List Byte) : State :=
  match imageWords image with
  | none => loadFailed
  | some ws => if ws.length ≤ Config.memWords then { State.reset with mem := Memory.ofWords 0 ws } else loadFailed

end Sys2Proof.Machine
end

