-- ==== Sys2Proof/Safety.lean ====
section
/-! DEFINITION. The terms claims are stated in: the invariant of every run, what a run of instructions is, and the
operand-role tables of spec/30_encoding.md R77 and 60_exceptions.md R171. -/

namespace Sys2Proof

/-- The destination operand, role D of R77; the instructions that have one are those 10_state.md R23 lists. -/
def Instr.destination? : Instr → Option Operand
  | .set a _ => some a
  | .pop a => some a
  | .eq a _ _ => some a
  | .gt a _ _ => some a
  | .add a _ _ => some a
  | .mult a _ _ => some a
  | .mod a _ _ => some a
  | .and a _ _ => some a
  | .or a _ _ => some a
  | .not a _ => some a
  | .rmem a _ => some a
  | .in_ a => some a
  | .halt => none
  | .push _ => none
  | .jmp _ => none
  | .jt _ _ => none
  | .jf _ _ => none
  | .wmem _ _ => none
  | .call _ => none
  | .ret => none
  | .out _ => none
  | .noop => none

/-- "Only jmp, jt, jf, call and ret overwrite `pc`" (40_fetch_dispatch.md R107). -/
def Instr.transfers : Instr → Bool
  | .jmp _ => true
  | .jt _ _ => true
  | .jf _ _ => true
  | .call _ => true
  | .ret => true
  | _ => false

/-- The faults an instruction can raise with an unbounded stack, the fetch faults aside (60_exceptions.md R171). -/
def Instr.mayRaise : Instr → List Machine.FaultKind
  | .halt => []
  | .noop => []
  | .ret => [.addressOutOfRange]
  | .set _ _ => [.invalidOperand, .invalidDestination]
  | .eq _ _ _ => [.invalidOperand, .invalidDestination]
  | .gt _ _ _ => [.invalidOperand, .invalidDestination]
  | .add _ _ _ => [.invalidOperand, .invalidDestination]
  | .mult _ _ _ => [.invalidOperand, .invalidDestination]
  | .and _ _ _ => [.invalidOperand, .invalidDestination]
  | .or _ _ _ => [.invalidOperand, .invalidDestination]
  | .not _ _ => [.invalidOperand, .invalidDestination]
  | .mod _ _ _ => [.invalidOperand, .divideByZero, .invalidDestination]
  | .push _ => [.invalidOperand]
  | .pop _ => [.stackUnderflow, .invalidDestination]
  | .jmp _ => [.invalidOperand, .addressOutOfRange]
  | .jt _ _ => [.invalidOperand, .addressOutOfRange]
  | .jf _ _ => [.invalidOperand, .addressOutOfRange]
  | .call _ => [.invalidOperand, .addressOutOfRange]
  | .rmem _ _ => [.invalidOperand, .addressOutOfRange, .invalidDestination]
  | .wmem _ _ => [.invalidOperand, .addressOutOfRange]
  | .out _ => [.invalidOperand, .ioError]
  | .in_ _ => [.ioError, .invalidDestination]

namespace Machine

/-- Halted or Faulted (10_state.md R38). -/
def RunStatus.isTerminal : RunStatus → Bool
  | .running => false
  | .halted => true
  | .faulted _ _ => true

/-- What holds of every state of a run: memory is in its canonical form, pc is in [0, 32768] (10_state.md R27), and a
faulted core's pc is the address it recorded (60_exceptions.md R173, R174). -/
structure State.Inv (s : State) : Prop where
  memory : s.mem.wf = true
  pcRange : s.pc.toNat ≤ Config.memWords
  faultIP : ∀ kind p, s.status = .faulted kind p → p = s.pc

/-- The state has ended in that fault (10_state.md R38), whatever address it records. -/
def State.faultedWith (s : State) (kind : FaultKind) : Prop := ∃ p, s.status = .faulted kind p

/-- The instruction ends in that fault (60_exceptions.md R172). The address a fault records is the spec's decision D7, and
FaultsArePrecise states it. -/
def Raises (i : Instr) (s : State) (kind : FaultKind) : Prop :=
  ∃ t, exec i s = .next t ∧ t.faultedWith kind

/-- The words of `i` stand in memory at pc (30_encoding.md R70). -/
def State.holdsAtPc (s : State) (i : Instr) : Prop :=
  s.pc.toNat + i.length ≤ Config.memWords ∧
  ∀ k, k < i.length → s.mem.readWord (s.pc.toNat + k) = (encode i).getD k 0

/-- Instructions carried out one after another, stopping where one does not answer a next state. -/
def execAll : List Instr → State → Result
  | [], s => .next s
  | i :: is, s =>
    match exec i s with
    | .next t => execAll is t
    | .fault r => .fault r
    | .refused r => .refused r

/-- What a rule of the shape "`WriteDest(a, f(Resolve(b), Resolve(c)))`", format W3, says of the opcode `op`: its words; its
effect, every other piece of state unchanged; InvalidOperand if b or c is invalid, otherwise InvalidDestination if a is not
a register reference. -/
def ThreeOperandRule (op : Word) (mk : Operand → Operand → Operand → Instr) (f : Word → Word → Word) : Prop :=
  ∀ (a b c : Operand) (s : State),
    encode (mk a b c) = [op, a.toWord, b.toWord, c.toWord] ∧
    (∀ r vb vc, a = .register r → resolve s b = .ok vb → resolve s c = .ok vc →
      exec (mk a b c) s = .next { s with regs := s.regs.set r (f vb vc), pc := s.pc + 4 }) ∧
    (b.isInvalid = true ∨ c.isInvalid = true → Raises (mk a b c) s .invalidOperand) ∧
    (b.isInvalid = false → c.isInvalid = false → a.isRegister = false → Raises (mk a b c) s .invalidDestination)

/-- What a rule of the shape "`WriteDest(a, f(Resolve(b)))`", format W2, says of the opcode `op`, in the same four parts. -/
def TwoOperandRule (op : Word) (mk : Operand → Operand → Instr) (f : Word → Word) : Prop :=
  ∀ (a b : Operand) (s : State),
    encode (mk a b) = [op, a.toWord, b.toWord] ∧
    (∀ r vb, a = .register r → resolve s b = .ok vb →
      exec (mk a b) s = .next { s with regs := s.regs.set r (f vb), pc := s.pc + 3 }) ∧
    (b.isInvalid = true → Raises (mk a b) s .invalidOperand) ∧
    (b.isInvalid = false → a.isRegister = false → Raises (mk a b) s .invalidDestination)

end Machine

end Sys2Proof
end

