-- ==== Sys2Proof/Certificates/Slice0/Obligations.lean ====
section
/-! DEFINITION. The statements for the provers, in the order of OBLIGATIONS.json. -/

open Sys2Proof Sys2Proof.Machine

/-! ### Encoding -/

/-- 30_encoding.md R84: the spec's own encoding examples, both ways. -/
def Obligations.SpecEncodingExamples : Prop :=
  encode (.set (.register 0) (.literal 4)) = [1, 32768, 4] ∧
  decode [1, 32768, 4] = .ok (.set (.register 0) (.literal 4), []) ∧
  encode (.add (.register 2) (.register 0) (.register 1)) = [9, 32770, 32768, 32769] ∧
  decode [9, 32770, 32768, 32769] = .ok (.add (.register 2) (.register 0) (.register 1), []) ∧
  encode .halt = [0] ∧ decode [0] = .ok (.halt, []) ∧
  decode [9, 32768, 32769, 4, 19, 32768] = .ok (.add (.register 0) (.register 1) (.literal 4), [19, 32768]) ∧
  decode [19, 32768] = .ok (.out (.register 0), []) ∧
  encode (.set (.literal 10) (.literal 5)) = [1, 10, 5] ∧
  decode [1, 10, 5] = .ok (.set (.literal 10) (.literal 5), [])

/-- Decoding the words of a well-formed instruction gives it back and leaves the words after it (30_encoding.md R70, R71,
R73, R77). -/
def Obligations.DecodeOfEncodeGivesItBack : Prop :=
  ∀ (i : Instr) (rest : List Word), i.wf = true → decode (encode i ++ rest) = .ok (i, rest)

/-- Whatever the decoder reads is well-formed and its words are exactly those that stood there: every word has one meaning
(30_encoding.md R72, R73, R77). -/
def Obligations.EncodeOfDecodeGivesTheWords : Prop :=
  ∀ (ws : List Word) (i : Instr) (rest : List Word),
    decode ws = .ok (i, rest) → i.wf = true ∧ encode i ++ rest = ws

/-- 30_encoding.md R73: the three classes of a raw operand word, by its value alone, and that an invalid word is rejected
wherever it is used. -/
def Obligations.OperandWordClasses : Prop :=
  ∀ v : Word,
    (v.toNat ≤ 32767 → Operand.ofWord v = .literal v ∧ ∀ s, resolve s (.ofWord v) = .ok v) ∧
    (∀ r : Fin 8, v.toNat = 32768 + r.val → Operand.ofWord v = .register r) ∧
    (32776 ≤ v.toNat → Operand.ofWord v = .invalid v ∧
      ∀ s w, resolve s (.ofWord v) = .error .invalidOperand ∧ writeDest s (.ofWord v) w = .error .invalidDestination)

/-- 30_encoding.md R78: an opcode word of 22 to 65535 raises InvalidOpcode when fetched, before any operand word is read
(so at address 32767 too). -/
def Obligations.IllegalOpcodeRaisesInvalidOpcode : Prop :=
  ∀ s : State, s.status = .running → s.pc.toNat < 32768 → 22 ≤ (s.mem.readWord s.pc.toNat).toNat →
    ∃ t, step s = .next t ∧ t.faultedWith .invalidOpcode

/-! ### Operands -/

/-- 40_fetch_dispatch.md R104: `Resolve(v)` on a raw word v. It answers a value and no state, so it changes none. -/
def Obligations.ResolveOfRawWord : Prop :=
  ∀ (s : State) (v : Word),
    (v.toNat ≤ 32767 → resolve s (.ofWord v) = .ok v) ∧
    (∀ r : Fin 8, v.toNat - 32768 = r.val → 32768 ≤ v.toNat → resolve s (.ofWord v) = .ok s.regs[r]) ∧
    (32775 < v.toNat → resolve s (.ofWord v) = .error .invalidOperand)

/-- 40_fetch_dispatch.md R105: `WriteDest(a, v)` on a raw word a: the value stored unchanged, nothing else touched, or
InvalidDestination. -/
def Obligations.WriteDestOfRawWord : Prop :=
  ∀ (s : State) (a v : Word),
    (∀ r : Fin 8, a.toNat = 32768 + r.val → writeDest s (.ofWord a) v = .ok { s with regs := s.regs.set r v }) ∧
    (a.toNat < 32768 ∨ 32775 < a.toNat → writeDest s (.ofWord a) v = .error .invalidDestination)

/-! ### Fetch and the step -/

/-- 40_fetch_dispatch.md R101: pc at 32768 or above is AddressOutOfRange; below, the word at pc is the opcode. -/
def Obligations.OpcodeFetch : Prop :=
  ∀ s : State, s.status = .running →
    (32768 ≤ s.pc.toNat → ∃ t, step s = .next t ∧ t.faultedWith .addressOutOfRange) ∧
    (s.pc.toNat < 32768 → ∀ i, fetch s.mem s.pc = .ok i → i.opcode = s.mem.readWord s.pc.toNat)

/-- The fetch unit as a function of memory and pc (the spec's own inference, 40_fetch_dispatch.md R111): its faults in the
order of 60_exceptions.md R175, else the instruction whose words stand at pc. -/
def Obligations.FetchUnit : Prop :=
  ∀ (m : Memory) (p : Word),
    (32768 ≤ p.toNat → fetch m p = .error .addressOutOfRange) ∧
    (p.toNat < 32768 → arity? (m.readWord p.toNat) = none → fetch m p = .error .invalidOpcode) ∧
    (∀ n, p.toNat < 32768 → arity? (m.readWord p.toNat) = some n → 32768 < p.toNat + 1 + n →
      fetch m p = .error .addressOutOfRange) ∧
    (∀ n, arity? (m.readWord p.toNat) = some n → p.toNat + 1 + n ≤ 32768 →
      ∃ i, fetch m p = .ok i ∧ i.wf = true ∧
        encode i = (List.range (1 + n)).map fun k => m.readWord (p.toNat + k))

/-- A step runs the decoded instruction: when the words at pc decode to i, step is exec of i at that same state; exec itself
moves pc past the words. -/
def Obligations.StepRunsDecodedInstruction : Prop :=
  ∀ (s : State) (i : Instr) (rest : List Word),
    s.status = .running → decode (s.mem.wordsFrom s.pc.toNat 4) = .ok (i, rest) → step s = exec i s

/-- When the words of a well-formed instruction stand in memory at pc, a step is exec of it. -/
def Obligations.StepRunsWordsInMemory : Prop :=
  ∀ (s : State) (i : Instr), s.status = .running → i.wf = true → s.holdsAtPc i → step s = exec i s

/-- Every step of every state answers a next state: no instruction and no fetch ends in a stop outside the machine's own
status (40_fetch_dispatch.md R109; 60_exceptions.md R172; the rendering is log entries 5, 6 and 7). -/
def Obligations.EveryStepAnswersANextState : Prop := ∀ s : State, ∃ t, step s = .next t

/-- "Once the status leaves Running it never changes again" (10_state.md R38): a halted or faulted core keeps its whole
state, however many steps are asked of it (keeping the state is the model's choice, log entry 6). -/
def Obligations.TerminalStateIsKept : Prop :=
  ∀ (s : State) (k : Nat), s.status.isTerminal = true → Host.Core.run core k s = .next s

/-- The invariant holds at reset. -/
def Obligations.InvariantAtReset : Prop := State.reset.Inv

/-- Every step keeps the invariant: memory's canonical form, pc in [0, 32768] (10_state.md R27), faultIP = pc (60_exceptions.md
R173). -/
def Obligations.StepKeepsInvariant : Prop := ∀ s t : State, s.Inv → step s = .next t → t.Inv

/-- Every state a run from any loaded image reaches, whatever the host answers, meets the invariant. -/
def Obligations.RunFromAnyImageKeepsInvariant : Prop :=
  ∀ (image : List Byte) (lines : List LineAnswer) (outs : List OutputAnswer) (k : Nat) (t : State),
    Host.Core.run core k { boot image with lineAnswers := lines, outAnswers := outs } = .next t → t.Inv

/-- Two memories in canonical form that read the same at every address are the same data. -/
def Obligations.EqualReadsMeanEqualMemory : Prop :=
  ∀ m m' : Memory, m.wf = true → m'.wf = true → (∀ a, m.readWord a = m'.readWord a) → m = m'

/-! ### Machine control -/

/-- 41_machine_control.md R120: halt. -/
def Obligations.HaltEndsTheRun : Prop :=
  encode .halt = [0] ∧ (∀ rest, decode (0 :: rest) = .ok (.halt, rest)) ∧
  ∀ s : State, exec .halt s = .next { s with status := .halted, pc := s.pc + 1 }

/-- 41_machine_control.md R121: noop, and its corner case at address 32767. -/
def Obligations.NoopOnlyAdvances : Prop :=
  encode .noop = [21] ∧ (∀ s : State, exec .noop s = .next { s with pc := s.pc + 1 }) ∧
  ∀ s : State, s.status = .running → s.pc = 32767 → s.mem.readWord 32767 = 21 →
    ∃ t, step s = .next t ∧ t.pc = 32768 ∧ ∃ u, step t = .next u ∧ u.faultedWith .addressOutOfRange

/-! ### Register moves and the stack -/

/-- 42_data_stack.md R125: set. -/
def Obligations.SetCopiesResolvedWord : Prop := TwoOperandRule 1 .set fun v => v

/-- 42_data_stack.md R126: push; StackOverflow only in a bounded build whose stack is full. -/
def Obligations.PushAppendsResolvedWord : Prop :=
  ∀ (a : Operand) (s : State),
    encode (.push a) = [2, a.toWord] ∧
    (∀ v, resolve s a = .ok v → exec (.push a) s = .next { s with stack := s.stack ++ [v], pc := s.pc + 2 }) ∧
    (a.isInvalid = true → Raises (.push a) s .invalidOperand) ∧
    (∀ k, a.isInvalid = false → k ≤ s.stack.length → pushHandler (some k) a s = .error .stackOverflow)

/-- 42_data_stack.md R127: pop; underflow before the destination; a faulting pop leaves the stack. -/
def Obligations.PopMovesTopToRegister : Prop :=
  ∀ (a : Operand) (s : State),
    encode (.pop a) = [3, a.toWord] ∧
    (∀ r st v, a = .register r → s.stack = st ++ [v] →
      exec (.pop a) s = .next { s with regs := s.regs.set r v, stack := st, pc := s.pc + 2 }) ∧
    (s.stack = [] → Raises (.pop a) s .stackUnderflow) ∧
    (s.stack ≠ [] → a.isRegister = false →
      ∃ t, exec (.pop a) s = .next t ∧ t.faultedWith .invalidDestination ∧ t.stack = s.stack)

/-! ### Comparison -/

/-- 43_compare.md R130: eq. -/
def Obligations.EqWritesOneIffEqual : Prop := ThreeOperandRule 4 .eq fun x y => if x = y then 1 else 0

/-- gt (43_compare.md section on opcode 5; that the comparison is unsigned is the spec's own inference from 00_scope.md). -/
def Obligations.GtWritesOneIffGreaterUnsigned : Prop :=
  ThreeOperandRule 5 .gt fun x y => if x.toNat > y.toNat then 1 else 0

/-! ### Control transfer -/

/-- 44_control_transfer.md R135: jmp. -/
def Obligations.JmpGoesToResolvedTarget : Prop :=
  ∀ (a : Operand) (s : State),
    encode (.jmp a) = [6, a.toWord] ∧
    (∀ t, resolve s a = .ok t → t.toNat < 32768 → exec (.jmp a) s = .next { s with pc := t }) ∧
    (a.isInvalid = true → Raises (.jmp a) s .invalidOperand) ∧
    (∀ t, resolve s a = .ok t → 32768 ≤ t.toNat → Raises (.jmp a) s .addressOutOfRange)

/-- jt (44_control_transfer.md section 2). That an untaken target is not examined is the spec's decision D3. -/
def Obligations.JtJumpsOnNonzero : Prop :=
  ∀ (a b : Operand) (s : State),
    encode (.jt a b) = [7, a.toWord, b.toWord] ∧
    (∀ v t, resolve s a = .ok v → v ≠ 0 → resolve s b = .ok t → t.toNat < 32768 →
      exec (.jt a b) s = .next { s with pc := t }) ∧
    (resolve s a = .ok 0 → exec (.jt a b) s = .next { s with pc := s.pc + 3 }) ∧
    (a.isInvalid = true → Raises (.jt a b) s .invalidOperand) ∧
    (∀ v, resolve s a = .ok v → v ≠ 0 → b.isInvalid = true → Raises (.jt a b) s .invalidOperand) ∧
    (∀ v t, resolve s a = .ok v → v ≠ 0 → resolve s b = .ok t → 32768 ≤ t.toNat →
      Raises (.jt a b) s .addressOutOfRange)

/-- jf (44_control_transfer.md section 2). Its target is resolved by 90_conflicts.md C2; that an untaken one is not examined
is the spec's decision D3. -/
def Obligations.JfJumpsOnZero : Prop :=
  ∀ (a b : Operand) (s : State),
    encode (.jf a b) = [8, a.toWord, b.toWord] ∧
    (∀ t, resolve s a = .ok 0 → resolve s b = .ok t → t.toNat < 32768 →
      exec (.jf a b) s = .next { s with pc := t }) ∧
    (∀ v, resolve s a = .ok v → v ≠ 0 → exec (.jf a b) s = .next { s with pc := s.pc + 3 }) ∧
    (a.isInvalid = true → Raises (.jf a b) s .invalidOperand) ∧
    (resolve s a = .ok 0 → b.isInvalid = true → Raises (.jf a b) s .invalidOperand) ∧
    (∀ t, resolve s a = .ok 0 → resolve s b = .ok t → 32768 ≤ t.toNat → Raises (.jf a b) s .addressOutOfRange)

/-- call (44_control_transfer.md section 2). The range check of the target, and that a faulting call pushes nothing, are the
spec's decisions D4 and D7. -/
def Obligations.CallPushesReturnAddress : Prop :=
  ∀ (a : Operand) (s : State),
    encode (.call a) = [17, a.toWord] ∧
    (∀ t, resolve s a = .ok t → t.toNat < 32768 →
      exec (.call a) s = .next { s with stack := s.stack ++ [s.pc + 2], pc := t }) ∧
    (a.isInvalid = true → Raises (.call a) s .invalidOperand) ∧
    (∀ t, resolve s a = .ok t → 32768 ≤ t.toNat →
      ∃ u, exec (.call a) s = .next u ∧ u.status = .faulted .addressOutOfRange s.pc ∧ u.stack = s.stack)

/-- ret (44_control_transfer.md section 2). The range check of the popped word is the spec's decision D5. -/
def Obligations.RetPopsOrHalts : Prop :=
  encode .ret = [18] ∧
  ∀ s : State,
    (s.stack = [] → exec .ret s = .next { s with status := .halted, pc := s.pc + 1 }) ∧
    (∀ st t, s.stack = st ++ [t] → t.toNat < 32768 → exec .ret s = .next { s with stack := st, pc := t }) ∧
    (∀ st t, s.stack = st ++ [t] → 32768 ≤ t.toNat →
      ∃ u, exec .ret s = .next u ∧ u.status = .faulted .addressOutOfRange s.pc ∧ u.stack = s.stack)

/-- A call's return address comes back: after a call, any state with the same stack that runs ret resumes at the word after
the call, with the stack as it was before the call. -/
def Obligations.CallThenRetResumesAfterCall : Prop :=
  ∀ (a : Operand) (s : State) (target : Word),
    resolve s a = .ok target → target.toNat < 32768 → s.pc.toNat + 2 < 32768 →
    ∃ t, exec (.call a) s = .next t ∧ t.pc = target ∧
      ∀ u : State, u.stack = t.stack → exec .ret u = .next { u with stack := s.stack, pc := s.pc + 2 }

/-! ### ALU -/

/-- 45_alu.md R146: add. -/
def Obligations.AddWritesSumModulo32768 : Prop :=
  ThreeOperandRule 9 .add fun x y => BitVec.ofNat 16 ((x.toNat + y.toNat) % 32768)

/-- 45_alu.md R147: mult. -/
def Obligations.MultWritesProductModulo32768 : Prop :=
  ThreeOperandRule 10 .mult fun x y => BitVec.ofNat 16 ((x.toNat * y.toNat) % 32768)

/-- mod (45_alu.md section 2). That the remainder is not reduced further is the spec's decision D9. -/
def Obligations.ModWritesExactRemainder : Prop :=
  ∀ (a b c : Operand) (s : State),
    encode (.mod a b c) = [11, a.toWord, b.toWord, c.toWord] ∧
    (∀ r vb vc, a = .register r → resolve s b = .ok vb → resolve s c = .ok vc → vc ≠ 0 →
      exec (.mod a b c) s =
        .next { s with regs := s.regs.set r (BitVec.ofNat 16 (vb.toNat % vc.toNat)), pc := s.pc + 4 }) ∧
    (b.isInvalid = true ∨ c.isInvalid = true → Raises (.mod a b c) s .invalidOperand) ∧
    (b.isInvalid = false → resolve s c = .ok 0 → Raises (.mod a b c) s .divideByZero) ∧
    (∀ vc, b.isInvalid = false → resolve s c = .ok vc → vc ≠ 0 → a.isRegister = false →
      Raises (.mod a b c) s .invalidDestination)

/-- and (45_alu.md section 2). That the 16-bit result is not reduced is the spec's decision D9. -/
def Obligations.AndWritesSixteenBitAnd : Prop := ThreeOperandRule 12 .and fun x y => x &&& y

/-- or (45_alu.md section 2). That the 16-bit result is not reduced is the spec's decision D9. -/
def Obligations.OrWritesSixteenBitOr : Prop := ThreeOperandRule 13 .or fun x y => x ||| y

/-- not (45_alu.md section 2), in the form 32767 - (v mod 32768). Its value for operands of 32768 and more is the spec's
decision D8. -/
def Obligations.NotWritesFifteenBitComplement : Prop :=
  TwoOperandRule 14 .not fun v => BitVec.ofNat 16 (32767 - v.toNat % 32768)

/-- "`add`, `mult` results always lie in [0,32767]", and not's (45_alu.md, the arithmetic laws): whatever a run of one of
them that ends without a fault leaves in the destination is below 32768. -/
def Obligations.AddMultNotResultsAreFifteenBits : Prop :=
  ∀ (r : Fin 8) (b c : Operand) (s t : State) (i : Instr),
    i = .add (.register r) b c ∨ i = .mult (.register r) b c ∨ i = .not (.register r) b →
    s.status = .running → exec i s = .next t → t.status = .running → (t.readReg r).toNat < 32768

/-! ### Memory access -/

/-- 46_memory_access.md R155: rmem. -/
def Obligations.RmemReadsMemoryWord : Prop :=
  ∀ (a b : Operand) (s : State),
    encode (.rmem a b) = [15, a.toWord, b.toWord] ∧
    (∀ r ea, a = .register r → resolve s b = .ok ea → ea.toNat < 32768 →
      exec (.rmem a b) s = .next { s with regs := s.regs.set r (s.mem.readWord ea.toNat), pc := s.pc + 3 }) ∧
    (b.isInvalid = true → Raises (.rmem a b) s .invalidOperand) ∧
    (∀ ea, resolve s b = .ok ea → 32768 ≤ ea.toNat → Raises (.rmem a b) s .addressOutOfRange) ∧
    (∀ ea, resolve s b = .ok ea → ea.toNat < 32768 → a.isRegister = false → Raises (.rmem a b) s .invalidDestination)

/-- 46_memory_access.md R156: wmem. The stored address is the resolved operand a; every other address reads as before, nothing
but memory and pc changes, and a store into code is what the next fetch of that address takes as its opcode. -/
def Obligations.WmemStoresResolvedWord : Prop :=
  ∀ (a b : Operand) (s : State),
    encode (.wmem a b) = [16, a.toWord, b.toWord] ∧
    (∀ ea v, s.mem.wf = true → resolve s a = .ok ea → resolve s b = .ok v → ea.toNat < 32768 →
      ∃ t, exec (.wmem a b) s = .next t ∧ t = { s with mem := t.mem, pc := s.pc + 3 } ∧
        t.mem.readWord ea.toNat = v ∧ (∀ x, x ≠ ea.toNat → t.mem.readWord x = s.mem.readWord x) ∧
        ∀ i, fetch t.mem ea = .ok i → i.opcode = v) ∧
    (a.isInvalid = true ∨ b.isInvalid = true → Raises (.wmem a b) s .invalidOperand) ∧
    (∀ ea, resolve s a = .ok ea → b.isInvalid = false → 32768 ≤ ea.toNat → Raises (.wmem a b) s .addressOutOfRange)

/-- wmem to an address, then rmem from it, yields the written value (the source's Scenario 4, 46_memory_access.md). -/
def Obligations.WmemThenRmemYieldsValue : Prop :=
  ∀ (a b c : Operand) (r : Fin 8) (s : State) (ea v : Word),
    s.mem.wf = true → resolve s a = .ok ea → resolve s b = .ok v → ea.toNat < 32768 →
    ∃ t, exec (.wmem a b) s = .next t ∧
      (resolve t c = .ok ea →
        exec (.rmem (.register r) c) t = .next { t with regs := t.regs.set r v, pc := t.pc + 3 })

/-- Self-modifying code (20_memory.md R65, R66): a step that runs `wmem a b` uses the operand words it has already read, even
where it overwrites them, and the next fetch of the stored address sees the stored word as its opcode. -/
def Obligations.StoreIsSeenByNextFetch : Prop :=
  ∀ (a b : Operand) (s : State) (ea v : Word),
    s.Inv → s.status = .running → (Instr.wmem a b).wf = true → s.holdsAtPc (.wmem a b) →
    resolve s a = .ok ea → resolve s b = .ok v → ea.toNat < 32768 →
    ∃ t, step s = .next t ∧ t.pc = s.pc + 3 ∧ t.mem.readWord ea.toNat = v ∧
      ∀ i, fetch t.mem ea = .ok i → i.opcode = v

/-! ### Character I/O -/

/-- 47_io.md R160: out, where the host has given its answer to the byte. -/
def Obligations.OutEmitsOneByte : Prop :=
  ∀ (a : Operand) (s : State),
    encode (.out a) = [19, a.toWord] ∧
    (∀ v answers, resolve s a = .ok v → v.toNat ≤ 255 → s.outAnswers = .ok :: answers →
      exec (.out a) s =
        .next { s with output := s.output ++ [BitVec.ofNat 8 v.toNat], outAnswers := answers, pc := s.pc + 2 }) ∧
    (a.isInvalid = true → Raises (.out a) s .invalidOperand) ∧
    (∀ v, resolve s a = .ok v → 255 < v.toNat → Raises (.out a) s .invalidOperand) ∧
    (∀ v answers, resolve s a = .ok v → v.toNat ≤ 255 → s.outAnswers = .channelError :: answers →
      Raises (.out a) s .ioError)

/-- in (47_io.md section 2): a buffered character, or the first of the line the host answers; IOError at end of stream or on
a channel error (the spec's decision D11); InvalidDestination after the character is taken. Of the buffer after that fault
nothing is said (decision D23, the free value of log entry 11). -/
def Obligations.InWritesNextCharacter : Prop :=
  ∀ (a : Operand) (s : State),
    encode (.in_ a) = [20, a.toWord] ∧
    (∀ r ch buf, a = .register r → s.inputBuf = ch :: buf →
      exec (.in_ a) s = .next { s with regs := s.regs.set r ch, inputBuf := buf, pc := s.pc + 2 }) ∧
    (∀ r ch buf answers, a = .register r → s.inputBuf = [] → s.lineAnswers = .line ch buf :: answers →
      exec (.in_ a) s =
        .next { s with regs := s.regs.set r ch, inputBuf := buf, lineAnswers := answers, pc := s.pc + 2 }) ∧
    (∀ answers, s.inputBuf = [] →
      s.lineAnswers = .endOfStream :: answers ∨ s.lineAnswers = .channelError :: answers → Raises (.in_ a) s .ioError) ∧
    (∀ ch buf answers, a.isRegister = false →
      s.inputBuf = ch :: buf ∨ (s.inputBuf = [] ∧ s.lineAnswers = .line ch buf :: answers) →
      ∃ t, exec (.in_ a) s = .next t ∧ t.status = .faulted .invalidDestination s.pc ∧
        t.regs = s.regs ∧ t.mem = s.mem ∧ t.stack = s.stack ∧ t.pc = s.pc)

/-- Where the host has not answered: an `in` that needs a line waits and changes no state, step after step, and completes once
a line is delivered, text as its codes under INPUT_ENCODING, whatever that is (60_exceptions.md, the wait state; 47_io.md,
character codes; log entries 7 and 16); an output byte with no listed answer is accepted (the model's choice, log entry 9),
and the answer the host then lists decides. -/
def Obligations.UnansweredRequests : Prop :=
  ∀ (a : Operand) (s : State),
    (s.inputBuf = [] → s.lineAnswers = [] → exec (.in_ a) s = .next s) ∧
    (s.awaitsLine = true → step s = .next s) ∧
    (∀ r ch buf, s.inputBuf = [] → s.lineAnswers = [] →
      exec (.in_ (.register r)) (s.deliverLine (.line ch buf)) =
        .next { s with regs := s.regs.set r ch, inputBuf := buf, pc := s.pc + 2 }) ∧
    (∀ r c cs, s.inputBuf = [] → s.lineAnswers = [] →
      exec (.in_ (.register r)) (s.deliverText c cs) =
        .next { s with regs := s.regs.set r (Config.inputEncoding c), inputBuf := cs.map Config.inputEncoding,
                       pc := s.pc + 2 }) ∧
    (∀ v, resolve s a = .ok v → v.toNat ≤ 255 → s.outAnswers = [] →
      exec (.out a) s = .next { s with output := s.output ++ [BitVec.ofNat 8 v.toNat], pc := s.pc + 2 } ∧
      Raises (.out a) (s.answerOutput .channelError) .ioError)

/-- 47_io.md R163: one line request, then one code for each `in`, in the line's order; no new request before the buffer is
empty again. -/
def Obligations.LineIsDeliveredInOrder : Prop :=
  ∀ (r : Fin 8) (ch : Word) (buf : List Word) (answers : List LineAnswer) (s : State) (k : Nat),
    s.inputBuf = [] → s.lineAnswers = .line ch buf :: answers → k < (ch :: buf).length →
    ∃ t, execAll (List.replicate (k + 1) (.in_ (.register r))) s = .next t ∧
      t.readReg r = (ch :: buf).getD k 0 ∧ t.inputBuf = (ch :: buf).drop (k + 1) ∧ t.lineAnswers = answers

/-! ### What no instruction does, and faults -/

/-- 10_state.md R23: no register but the destination changes, none where there is no destination, and a step changes at
most one. -/
def Obligations.OnlyDestinationRegisterChanges : Prop :=
  (∀ (i : Instr) (s t : State) (r : Fin 8), exec i s = .next t → i.destination? ≠ some (.register r) →
    t.readReg r = s.readReg r) ∧
  (∀ (s t : State) (r q : Fin 8), step s = .next t →
    t.readReg r ≠ s.readReg r → t.readReg q ≠ s.readReg q → r = q)

/-- 40_fetch_dispatch.md R107: an instruction that ends without a fault leaves pc after its words, unless it is one of the five
that overwrite it (an `in` that still waits has not ended); so does an untaken jt or jf. -/
def Obligations.PcStandsAfterInstruction : Prop :=
  (∀ (i : Instr) (s t : State), s.status = .running → exec i s = .next t →
    (∀ kind p, t.status ≠ .faulted kind p) → i.transfers = false →
    ((∃ a, i = .in_ a) → s.inputBuf ≠ [] ∨ s.lineAnswers ≠ []) → t.pc = s.pc + BitVec.ofNat 16 i.length) ∧
  (∀ (a b : Operand) (s t : State), resolve s a = .ok 0 → exec (.jt a b) s = .next t → t.pc = s.pc + 3) ∧
  (∀ (a b : Operand) (s t : State) (v : Word), resolve s a = .ok v → v ≠ 0 → exec (.jf a b) s = .next t →
    t.pc = s.pc + 3)

/-- Only wmem changes memory (20_memory.md section 1): every address reads as before after any other instruction, and a step
that changes memory ran a wmem. -/
def Obligations.OnlyWmemChangesMemory : Prop :=
  (∀ (i : Instr) (s t : State), (∀ a b, i ≠ .wmem a b) → exec i s = .next t →
    ∀ x, t.mem.readWord x = s.mem.readWord x) ∧
  (∀ s t : State, step s = .next t → t.mem ≠ s.mem → ∃ a b, fetch s.mem s.pc = .ok (.wmem a b))

/-- Only push, pop, call and ret change the stack, and only at its top, by one word (10_state.md section 4). -/
def Obligations.StackChangesOnlyAtTop : Prop :=
  ∀ (i : Instr) (s t : State), exec i s = .next t →
    t.stack = s.stack ∨
    (∃ v, t.stack = s.stack ++ [v] ∧ ((∃ a, i = .push a) ∨ ∃ a, i = .call a)) ∨
    (∃ v, s.stack = t.stack ++ [v] ∧ ((∃ a, i = .pop a) ∨ i = .ret))

/-- No instruction reads a stack entry other than the top (10_state.md section 4): words put below a stack that is not
empty change nothing but themselves. -/
def Obligations.EntriesBelowTopAreNotRead : Prop :=
  ∀ (i : Instr) (s t : State) (below : List Word), s.stack ≠ [] → exec i s = .next t →
    exec i { s with stack := below ++ s.stack } = .next { t with stack := below ++ t.stack }

/-- Only in changes the input buffer and takes line answers (10_state.md section 5); only out adds to the output, at most one
byte and at its end (47_io.md section 1), and takes output answers. -/
def Obligations.OnlyInAndOutReachTheChannel : Prop :=
  ∀ (i : Instr) (s t : State), exec i s = .next t →
    ((∀ a, i ≠ .in_ a) →
      t.inputBuf = s.inputBuf ∧ t.lineAnswers = s.lineAnswers ∧ t.freeCount = s.freeCount) ∧
    ((∀ a, i ≠ .out a) → t.output = s.output ∧ t.outAnswers = s.outAnswers) ∧
    (t.output = s.output ∨ ∃ b, t.output = s.output ++ [b])

/-- Faults are precise (the spec's decisions D7 and D23): a step that faults records its own pc and leaves registers, memory,
stack, pc and output as they were, and the input buffer too unless the instruction is an `in`. -/
def Obligations.FaultsArePrecise : Prop :=
  ∀ (s t : State) (kind : FaultKind) (p : Word),
    s.status = .running → step s = .next t → t.status = .faulted kind p →
    p = s.pc ∧ t.pc = s.pc ∧ t.regs = s.regs ∧ t.mem = s.mem ∧ t.stack = s.stack ∧ t.output = s.output ∧
    ((∀ a, fetch s.mem s.pc ≠ .ok (.in_ a)) → t.inputBuf = s.inputBuf)

/-- The faults each instruction can raise (the spec's own inference, 60_exceptions.md R171), and the two kinds fetch adds. -/
def Obligations.FaultKindsPerInstruction : Prop :=
  (∀ (i : Instr) (s t : State) (kind : FaultKind) (p : Word),
    s.status = .running → exec i s = .next t → t.status = .faulted kind p → kind ∈ i.mayRaise) ∧
  (∀ (m : Memory) (p : Word) (kind : FaultKind), fetch m p = .error kind →
    kind = .addressOutOfRange ∨ kind = .invalidOpcode)

/-- The run ends Halted only by halt or by ret on an empty stack (40_fetch_dispatch.md section 1, termination). -/
def Obligations.HaltedOnlyByHaltOrEmptyRet : Prop :=
  ∀ s t : State, s.status = .running → step s = .next t → t.status = .halted →
    fetch s.mem s.pc = .ok .halt ∨ (fetch s.mem s.pc = .ok .ret ∧ s.stack = [])

/-- A build whose stack holds K words (60_exceptions.md section 5; the spec's decision D15): push and call raise StackOverflow
on a full stack, call after its target's check, and act as in the unbounded build below K. -/
def Obligations.BoundedStackOverflows : Prop :=
  ∀ (a : Operand) (s : State) (v : Word) (k : Nat), resolve s a = .ok v →
    (k ≤ s.stack.length → pushHandler (some k) a s = .error .stackOverflow) ∧
    (k ≤ s.stack.length → v.toNat < 32768 → callHandler (some k) a s = .error .stackOverflow) ∧
    (32768 ≤ v.toNat → callHandler (some k) a s = .error .addressOutOfRange) ∧
    (s.stack.length < k → exec (.push a) s = complete s (pushHandler (some k) a s) ∧
      exec (.call a) s = complete s (callHandler (some k) a s))

/-! ### Reset and the loader -/

/-- 70_reset_and_hazards.md R202: the loader. -/
def Obligations.LoaderFillsMemoryOrFails : Prop :=
  ∀ image : List Byte,
    (image.length % 2 = 1 → (boot image).faultedWith .loadError) ∧
    (32768 < image.length / 2 → (boot image).faultedWith .loadError) ∧
    (image.length % 2 = 0 → image.length / 2 ≤ 32768 → (boot image).status = .running ∧
      ∀ k, k < image.length / 2 →
        ((boot image).mem.readWord k).toNat = (image.getD (2 * k) 0).toNat + 256 * (image.getD (2 * k + 1) 0).toNat)

/-- 70_reset_and_hazards.md R200: the state right after a successful load. -/
def Obligations.ResetState : Prop :=
  ∀ image : List Byte, image.length % 2 = 0 → image.length / 2 ≤ 32768 →
    (∀ r : Fin 8, (boot image).regs[r] = 0) ∧ (boot image).pc = 0 ∧ (boot image).stack = [] ∧
    (boot image).inputBuf = [] ∧ (boot image).status = .running ∧
    (∀ k, k < image.length / 2 →
      ((boot image).mem.readWord k).toNat = (image.getD (2 * k) 0).toNat + 256 * (image.getD (2 * k + 1) 0).toNat) ∧
    (∀ k, image.length / 2 ≤ k → (boot image).mem.readWord k = 0)

/-- A load that fails ends in Faulted(LoadError, 0) and no instruction ever runs (the spec's decision D26). -/
def Obligations.LoadErrorRunsNothing : Prop :=
  ∀ (image : List Byte) (k : Nat), image.length % 2 = 1 ∨ 32768 < image.length / 2 →
    (boot image).status = .faulted .loadError 0 ∧ Host.Core.run core k (boot image) = .next (boot image)

/-- The image of 0 bytes halts at once (the spec's own inference, 70_reset_and_hazards.md R204): Halted with pc = 1. That
`State.reset` is the state after loading that image is the model's choice (log entry 14). -/
def Obligations.EmptyImageHaltsAtOnce : Prop :=
  boot [] = State.reset ∧
  step State.reset = .next { State.reset with status := .halted, pc := 1 }
end

