-- ==== Sys2Proof/Laws/Decode.lean ====
section
/-! SUPPORT. Operand words and operand classes are inverse to each other, and the small lemmas of the decoder's parts. -/

namespace Sys2Proof

theorem Operand.ofWord_literal {v : Word} (h : v.toNat < 32768) : ofWord v = .literal v := by
  simp [ofWord, h]

theorem Operand.ofWord_register {v : Word} (r : Fin 8) (h : v.toNat = 32768 + r.val) : ofWord v = .register r := by
  have hr := r.isLt
  simp only [ofWord, Config.regBase, Config.regLast]
  rw [if_neg (by omega), dif_pos (by omega)]
  exact congrArg Operand.register (Fin.ext (by show v.toNat - 32768 = r.val; omega))

theorem Operand.ofWord_invalid {v : Word} (h : 32776 ≤ v.toNat) : ofWord v = .invalid v := by
  simp only [ofWord, Config.regBase, Config.regLast]
  rw [if_neg (by omega), dif_neg (by omega)]

theorem Operand.toWord_register_toNat (r : Fin 8) : (toWord (.register r)).toNat = 32768 + r.val := by
  have hr := r.isLt
  simp only [toWord, Config.regBase, BitVec.toNat_ofNat]
  omega

/-- Every raw word falls into exactly one of the three classes. -/
theorem Operand.ofWord_cases (v : Word) :
    (v.toNat < 32768 ∧ ofWord v = .literal v) ∨ (∃ r : Fin 8, v.toNat = 32768 + r.val ∧ ofWord v = .register r) ∨
    (32776 ≤ v.toNat ∧ ofWord v = .invalid v) := by
  rcases Nat.lt_or_ge v.toNat 32768 with h | h
  · exact .inl ⟨h, ofWord_literal h⟩
  · rcases Nat.lt_or_ge v.toNat 32776 with h' | h'
    · have hr : v.toNat = 32768 + (⟨v.toNat - 32768, by omega⟩ : Fin 8).val := by simp only; omega
      exact .inr (.inl ⟨_, hr, ofWord_register _ hr⟩)
    · exact .inr (.inr ⟨h', ofWord_invalid h'⟩)

/-- Sorting a word into its class loses nothing. -/
@[simp] theorem Operand.toWord_ofWord (v : Word) : (ofWord v).toWord = v := by
  rcases ofWord_cases v with ⟨_, h⟩ | ⟨r, hr, h⟩ | ⟨_, h⟩ <;> rw [h]
  · rfl
  · exact BitVec.eq_of_toNat_eq (by rw [toWord_register_toNat, hr])
  · rfl

/-- The class of a well-formed operand's word is that operand. -/
theorem Operand.ofWord_toWord {o : Operand} (h : o.wf = true) : ofWord o.toWord = o := by
  cases o with
  | literal v => exact ofWord_literal (v := v) (by simpa [wf] using h)
  | register r => exact ofWord_register r (toWord_register_toNat r)
  | invalid v => exact ofWord_invalid (v := v) (by simp [wf] at h; omega)

@[simp] theorem Operand.wf_ofWord (v : Word) : (ofWord v).wf = true := by
  rcases ofWord_cases v with ⟨hv, h⟩ | ⟨r, hr, h⟩ | ⟨hv, h⟩ <;> rw [h] <;> simp [wf] <;> omega

/-- The encoded words are as many as the instruction's length says. -/
@[simp] theorem encode_length (i : Instr) : (encode i).length = i.length := by
  simp [encode, Instr.length, Nat.add_comm]

theorem formatW1_ok {mk : Operand → Instr} {ws rest : List Word} {i : Instr} (h : formatW1 mk ws = .ok (i, rest)) :
    ∃ a, ws = a :: rest ∧ i = mk (.ofWord a) := by
  match ws, h with
  | a :: ws, h => simp [formatW1] at h; exact ⟨a, by simp [h.2], h.1.symm⟩

theorem formatW2_ok {mk : Operand → Operand → Instr} {ws rest : List Word} {i : Instr}
    (h : formatW2 mk ws = .ok (i, rest)) : ∃ a b, ws = a :: b :: rest ∧ i = mk (.ofWord a) (.ofWord b) := by
  match ws, h with
  | a :: b :: ws, h => simp [formatW2] at h; exact ⟨a, b, by simp [h.2], h.1.symm⟩

theorem formatW3_ok {mk : Operand → Operand → Operand → Instr} {ws rest : List Word} {i : Instr}
    (h : formatW3 mk ws = .ok (i, rest)) :
    ∃ a b c, ws = a :: b :: c :: rest ∧ i = mk (.ofWord a) (.ofWord b) (.ofWord c) := by
  match ws, h with
  | a :: b :: c :: ws, h => simp [formatW3] at h; exact ⟨a, b, c, by simp [h.2], h.1.symm⟩

/-- An opcode number with no defined operation is refused, whatever follows it. -/
theorem decodeOp_invalid {op : Nat} (h : 22 ≤ op) (rest : List Word) : decodeOp op rest = .error .invalidOpcode := by
  obtain ⟨n, rfl⟩ := Nat.exists_eq_add_of_le' h
  rfl

/-- The table has an arity for exactly the defined opcodes. -/
theorem arity?_eq_none_iff (op : Word) : arity? op = none ↔ 22 ≤ op.toNat := by
  simp [arity?, arityTable]

end Sys2Proof
end

