-- ==== Sys2Proof/Laws/Memory.lean ====
section
/-! SUPPORT. Memory: reads after writes, and that every operation keeps the canonical form. -/

namespace Sys2Proof.Machine.Memory

@[simp] theorem readWord_nil (a : Nat) : readWord [] a = 0 := rfl

/-- A word put before the listed ones is read at its address, wherever the rest reads 0 there. -/
theorem readWord_cons (m : Memory) (a b : Nat) (v : Word) (h : m.readWord a = 0) :
    readWord (cons a v m) b = if b = a then v else m.readWord b := by
  by_cases hv : v = 0 <;> simp only [cons, Config.blankWord, hv, if_true, if_false, readWord]
  split <;> simp_all

/-- Below the lowest listed address memory reads 0. -/
theorem readWord_below {m : Memory} {lo a : Nat} (h : wfFrom lo m = true) (ha : a < lo) : m.readWord a = 0 := by
  induction m generalizing lo with
  | nil => rfl
  | cons c m ih =>
    obtain ⟨b, w⟩ := c
    simp only [wfFrom, Bool.and_eq_true, decide_eq_true_eq] at h
    simp only [readWord, if_neg (show a ≠ b by omega)]
    exact ih h.2 (by omega)

theorem wfFrom_mono {m : Memory} {lo lo' : Nat} (h : wfFrom lo m = true) (hl : lo' ≤ lo) : wfFrom lo' m = true := by
  cases m with
  | nil => rfl
  | cons c m =>
    simp only [wfFrom, Bool.and_eq_true, decide_eq_true_eq] at h ⊢
    exact ⟨⟨⟨by omega, h.1.1.2⟩, h.1.2⟩, h.2⟩

theorem wfFrom_cons {m : Memory} {lo a : Nat} (v : Word) (h : wfFrom (a + 1) m = true) (hlo : lo ≤ a)
    (ha : a < Config.memWords) : wfFrom lo (cons a v m) = true := by
  unfold cons
  split
  · exact wfFrom_mono h (by omega)
  · simp_all [wfFrom]

/-- A store keeps the form from any lowest address it does not go below. -/
theorem wfFrom_writeWord {m : Memory} {lo a : Nat} (v : Word) (h : wfFrom lo m = true) (hlo : lo ≤ a)
    (ha : a < Config.memWords) : wfFrom lo (m.writeWord a v) = true := by
  induction m generalizing lo with
  | nil => exact wfFrom_cons v rfl hlo ha
  | cons c m ih =>
    obtain ⟨b, w⟩ := c
    have hc := h
    simp only [wfFrom, Bool.and_eq_true, decide_eq_true_eq] at h
    unfold writeWord
    split
    · refine wfFrom_cons v ?_ hlo ha
      simp only [wfFrom, Bool.and_eq_true, decide_eq_true_eq]
      exact ⟨⟨⟨by omega, h.1.1.2⟩, h.1.2⟩, h.2⟩
    · split
      · subst a
        exact wfFrom_cons v h.2 hlo ha
      · simp only [wfFrom, Bool.and_eq_true, decide_eq_true_eq]
        exact ⟨h.1, ih h.2 (by omega)⟩

/-- A store to an existing address keeps the canonical form. -/
theorem wf_writeWord {m : Memory} {a : Nat} (v : Word) (h : m.wf = true) (ha : a < Config.memWords) :
    (m.writeWord a v).wf = true := wfFrom_writeWord v h (Nat.zero_le _) ha

theorem readWord_writeWord_from {m : Memory} {lo : Nat} (h : wfFrom lo m = true) (a b : Nat) (v : Word) :
    (m.writeWord a v).readWord b = if b = a then v else m.readWord b := by
  induction m generalizing lo with
  | nil => exact readWord_cons [] a b v rfl
  | cons c m ih =>
    obtain ⟨d, w⟩ := c
    have hc := h
    simp only [wfFrom, Bool.and_eq_true, decide_eq_true_eq] at h
    unfold writeWord
    split
    · rename_i had
      exact readWord_cons _ a b v (readWord_below (lo := d) (by simp [wfFrom, h]; simpa using h.1.2) had)
    · split
      · subst a
        rw [readWord_cons _ _ _ _ (readWord_below h.2 (by omega))]
        simp only [readWord]
        split <;> simp_all
      · simp only [readWord, ih h.2]
        split
        · rw [if_neg (by omega)]
        · rfl

/-- A read after a store: the stored word at its address, every other address as before. -/
theorem readWord_writeWord {m : Memory} (h : m.wf = true) (a b : Nat) (v : Word) :
    (m.writeWord a v).readWord b = if b = a then v else m.readWord b := readWord_writeWord_from h a b v

@[simp] theorem wf_nil : wf [] = true := rfl

/-- Words laid out within memory are in canonical form. -/
theorem wfFrom_ofWords (ws : List Word) (a lo : Nat) (hlo : lo ≤ a) (h : a + ws.length ≤ Config.memWords) :
    wfFrom lo (ofWords a ws) = true := by
  induction ws generalizing a lo with
  | nil => rfl
  | cons w ws ih =>
    simp only [List.length_cons] at h
    exact wfFrom_cons w (ih (a + 1) (a + 1) (Nat.le_refl _) (by omega)) hlo (by simp at h ⊢; omega)

theorem readWord_ofWords_below (ws : List Word) (a b : Nat) (h : b < a) : (ofWords a ws).readWord b = 0 := by
  induction ws generalizing a b with
  | nil => rfl
  | cons w ws ih =>
    unfold ofWords
    rw [readWord_cons _ a b w (ih (a + 1) a (by omega)), if_neg (by omega)]
    exact ih _ _ (by omega)

/-- What words laid out from `a` on read as: each word at its address, 0 beyond. -/
theorem readWord_ofWords (ws : List Word) (a k : Nat) : (ofWords a ws).readWord (a + k) = ws.getD k 0 := by
  induction ws generalizing a k with
  | nil => rfl
  | cons w ws ih =>
    unfold ofWords
    rw [readWord_cons _ _ _ _ (readWord_ofWords_below ws _ _ (by omega))]
    cases k with
    | zero => simp
    | succ k =>
      rw [if_neg (by omega), show a + (k + 1) = a + 1 + k by omega, ih]
      simp

/-- Storing words keeps the canonical form. -/
theorem wf_writeWords (ws : List Word) (m : Memory) (a : Nat) (h : m.wf = true) : (m.writeWords a ws).wf = true := by
  induction ws generalizing m a with
  | nil => exact h
  | cons w ws ih =>
    refine ih _ _ ?_
    split
    · exact wf_writeWord w h ‹_›
    · exact h

theorem wordsFrom_length_le (m : Memory) (a n : Nat) : (m.wordsFrom a n).length ≤ n := by
  induction n generalizing a with
  | zero => simp [wordsFrom]
  | succ n ih =>
    unfold wordsFrom
    split
    · simpa using ih (a + 1)
    · simp

/-- The words that are there, one by one. -/
theorem wordsFrom_eq (m : Memory) (a n : Nat) (ha : a ≤ Config.memWords) :
    m.wordsFrom a n = (List.range (min n (Config.memWords - a))).map fun k => m.readWord (a + k) := by
  induction n generalizing a with
  | zero => simp [wordsFrom]
  | succ n ih =>
    unfold wordsFrom
    split
    · rename_i h
      rw [ih (a + 1) h, show min (n + 1) (Config.memWords - a) = min n (Config.memWords - (a + 1)) + 1 by
        simp at h ⊢; omega, List.range_succ_eq_map]
      simp [Function.comp_def, Nat.add_assoc, Nat.add_comm 1]
    · rename_i h
      rw [show min (n + 1) (Config.memWords - a) = 0 by simp at h ⊢; omega]
      rfl

end Sys2Proof.Machine.Memory
end

