-- ==== Sys2Proof/Laws/State.lean ====
section
/-! SUPPORT. One lemma per field per update of State, so that no later proof unfolds a record update. -/

namespace Sys2Proof.Machine

@[simp] theorem State.writeReg_regs (s : State) (r : Fin 8) (v : Word) : (s.writeReg r v).regs = s.regs.set r v := rfl
@[simp] theorem State.writeReg_pc (s : State) (r : Fin 8) (v : Word) : (s.writeReg r v).pc = s.pc := rfl
@[simp] theorem State.writeReg_mem (s : State) (r : Fin 8) (v : Word) : (s.writeReg r v).mem = s.mem := rfl
@[simp] theorem State.writeReg_stack (s : State) (r : Fin 8) (v : Word) : (s.writeReg r v).stack = s.stack := rfl
@[simp] theorem State.writeReg_inputBuf (s : State) (r : Fin 8) (v : Word) : (s.writeReg r v).inputBuf = s.inputBuf := rfl
@[simp] theorem State.writeReg_status (s : State) (r : Fin 8) (v : Word) : (s.writeReg r v).status = s.status := rfl
@[simp] theorem State.writeReg_lineAnswers (s : State) (r : Fin 8) (v : Word) : (s.writeReg r v).lineAnswers = s.lineAnswers := rfl
@[simp] theorem State.writeReg_outAnswers (s : State) (r : Fin 8) (v : Word) : (s.writeReg r v).outAnswers = s.outAnswers := rfl
@[simp] theorem State.writeReg_output (s : State) (r : Fin 8) (v : Word) : (s.writeReg r v).output = s.output := rfl
@[simp] theorem State.writeReg_freeCount (s : State) (r : Fin 8) (v : Word) : (s.writeReg r v).freeCount = s.freeCount := rfl

@[simp] theorem State.advance_regs (s : State) (n : Nat) : (s.advance n).regs = s.regs := rfl
@[simp] theorem State.advance_pc (s : State) (n : Nat) : (s.advance n).pc = s.pc + BitVec.ofNat 16 n := rfl
@[simp] theorem State.advance_mem (s : State) (n : Nat) : (s.advance n).mem = s.mem := rfl
@[simp] theorem State.advance_stack (s : State) (n : Nat) : (s.advance n).stack = s.stack := rfl
@[simp] theorem State.advance_inputBuf (s : State) (n : Nat) : (s.advance n).inputBuf = s.inputBuf := rfl
@[simp] theorem State.advance_status (s : State) (n : Nat) : (s.advance n).status = s.status := rfl
@[simp] theorem State.advance_lineAnswers (s : State) (n : Nat) : (s.advance n).lineAnswers = s.lineAnswers := rfl
@[simp] theorem State.advance_outAnswers (s : State) (n : Nat) : (s.advance n).outAnswers = s.outAnswers := rfl
@[simp] theorem State.advance_output (s : State) (n : Nat) : (s.advance n).output = s.output := rfl
@[simp] theorem State.advance_freeCount (s : State) (n : Nat) : (s.advance n).freeCount = s.freeCount := rfl
@[simp] theorem State.advance_readReg (s : State) (n : Nat) (q : Fin 8) : (s.advance n).readReg q = s.readReg q := rfl

@[simp] theorem State.setPc_regs (s : State) (t : Word) : (s.setPc t).regs = s.regs := rfl
@[simp] theorem State.setPc_pc (s : State) (t : Word) : (s.setPc t).pc = t := rfl
@[simp] theorem State.setPc_mem (s : State) (t : Word) : (s.setPc t).mem = s.mem := rfl
@[simp] theorem State.setPc_stack (s : State) (t : Word) : (s.setPc t).stack = s.stack := rfl
@[simp] theorem State.setPc_inputBuf (s : State) (t : Word) : (s.setPc t).inputBuf = s.inputBuf := rfl
@[simp] theorem State.setPc_status (s : State) (t : Word) : (s.setPc t).status = s.status := rfl
@[simp] theorem State.setPc_lineAnswers (s : State) (t : Word) : (s.setPc t).lineAnswers = s.lineAnswers := rfl
@[simp] theorem State.setPc_outAnswers (s : State) (t : Word) : (s.setPc t).outAnswers = s.outAnswers := rfl
@[simp] theorem State.setPc_output (s : State) (t : Word) : (s.setPc t).output = s.output := rfl
@[simp] theorem State.setPc_freeCount (s : State) (t : Word) : (s.setPc t).freeCount = s.freeCount := rfl
@[simp] theorem State.setPc_readReg (s : State) (t : Word) (q : Fin 8) : (s.setPc t).readReg q = s.readReg q := rfl

@[simp] theorem State.storeWord_regs (s : State) (a : Nat) (v : Word) : (s.storeWord a v).regs = s.regs := rfl
@[simp] theorem State.storeWord_pc (s : State) (a : Nat) (v : Word) : (s.storeWord a v).pc = s.pc := rfl
@[simp] theorem State.storeWord_mem (s : State) (a : Nat) (v : Word) : (s.storeWord a v).mem = s.mem.writeWord a v := rfl
@[simp] theorem State.storeWord_stack (s : State) (a : Nat) (v : Word) : (s.storeWord a v).stack = s.stack := rfl
@[simp] theorem State.storeWord_inputBuf (s : State) (a : Nat) (v : Word) : (s.storeWord a v).inputBuf = s.inputBuf := rfl
@[simp] theorem State.storeWord_status (s : State) (a : Nat) (v : Word) : (s.storeWord a v).status = s.status := rfl
@[simp] theorem State.storeWord_lineAnswers (s : State) (a : Nat) (v : Word) : (s.storeWord a v).lineAnswers = s.lineAnswers := rfl
@[simp] theorem State.storeWord_outAnswers (s : State) (a : Nat) (v : Word) : (s.storeWord a v).outAnswers = s.outAnswers := rfl
@[simp] theorem State.storeWord_output (s : State) (a : Nat) (v : Word) : (s.storeWord a v).output = s.output := rfl
@[simp] theorem State.storeWord_freeCount (s : State) (a : Nat) (v : Word) : (s.storeWord a v).freeCount = s.freeCount := rfl
@[simp] theorem State.storeWord_readReg (s : State) (a : Nat) (v : Word) (q : Fin 8) : (s.storeWord a v).readReg q = s.readReg q := rfl

@[simp] theorem State.setStack_regs (s : State) (st : List Word) : (s.setStack st).regs = s.regs := rfl
@[simp] theorem State.setStack_pc (s : State) (st : List Word) : (s.setStack st).pc = s.pc := rfl
@[simp] theorem State.setStack_mem (s : State) (st : List Word) : (s.setStack st).mem = s.mem := rfl
@[simp] theorem State.setStack_stack (s : State) (st : List Word) : (s.setStack st).stack = st := rfl
@[simp] theorem State.setStack_inputBuf (s : State) (st : List Word) : (s.setStack st).inputBuf = s.inputBuf := rfl
@[simp] theorem State.setStack_status (s : State) (st : List Word) : (s.setStack st).status = s.status := rfl
@[simp] theorem State.setStack_lineAnswers (s : State) (st : List Word) : (s.setStack st).lineAnswers = s.lineAnswers := rfl
@[simp] theorem State.setStack_outAnswers (s : State) (st : List Word) : (s.setStack st).outAnswers = s.outAnswers := rfl
@[simp] theorem State.setStack_output (s : State) (st : List Word) : (s.setStack st).output = s.output := rfl
@[simp] theorem State.setStack_freeCount (s : State) (st : List Word) : (s.setStack st).freeCount = s.freeCount := rfl
@[simp] theorem State.setStack_readReg (s : State) (st : List Word) (q : Fin 8) : (s.setStack st).readReg q = s.readReg q := rfl

@[simp] theorem State.enterHalted_regs (s : State) : (s.enterHalted).regs = s.regs := rfl
@[simp] theorem State.enterHalted_pc (s : State) : (s.enterHalted).pc = s.pc := rfl
@[simp] theorem State.enterHalted_mem (s : State) : (s.enterHalted).mem = s.mem := rfl
@[simp] theorem State.enterHalted_stack (s : State) : (s.enterHalted).stack = s.stack := rfl
@[simp] theorem State.enterHalted_inputBuf (s : State) : (s.enterHalted).inputBuf = s.inputBuf := rfl
@[simp] theorem State.enterHalted_status (s : State) : (s.enterHalted).status = .halted := rfl
@[simp] theorem State.enterHalted_lineAnswers (s : State) : (s.enterHalted).lineAnswers = s.lineAnswers := rfl
@[simp] theorem State.enterHalted_outAnswers (s : State) : (s.enterHalted).outAnswers = s.outAnswers := rfl
@[simp] theorem State.enterHalted_output (s : State) : (s.enterHalted).output = s.output := rfl
@[simp] theorem State.enterHalted_freeCount (s : State) : (s.enterHalted).freeCount = s.freeCount := rfl
@[simp] theorem State.enterHalted_readReg (s : State) (q : Fin 8) : (s.enterHalted).readReg q = s.readReg q := rfl

@[simp] theorem State.takeFault_regs (s : State) (kind : FaultKind) : (s.takeFault kind).regs = s.regs := rfl
@[simp] theorem State.takeFault_pc (s : State) (kind : FaultKind) : (s.takeFault kind).pc = s.pc := rfl
@[simp] theorem State.takeFault_mem (s : State) (kind : FaultKind) : (s.takeFault kind).mem = s.mem := rfl
@[simp] theorem State.takeFault_stack (s : State) (kind : FaultKind) : (s.takeFault kind).stack = s.stack := rfl
@[simp] theorem State.takeFault_inputBuf (s : State) (kind : FaultKind) : (s.takeFault kind).inputBuf = s.inputBuf := rfl
@[simp] theorem State.takeFault_status (s : State) (kind : FaultKind) : (s.takeFault kind).status = .faulted kind s.pc := rfl
@[simp] theorem State.takeFault_lineAnswers (s : State) (kind : FaultKind) : (s.takeFault kind).lineAnswers = s.lineAnswers := rfl
@[simp] theorem State.takeFault_outAnswers (s : State) (kind : FaultKind) : (s.takeFault kind).outAnswers = s.outAnswers := rfl
@[simp] theorem State.takeFault_output (s : State) (kind : FaultKind) : (s.takeFault kind).output = s.output := rfl
@[simp] theorem State.takeFault_freeCount (s : State) (kind : FaultKind) : (s.takeFault kind).freeCount = s.freeCount := rfl
@[simp] theorem State.takeFault_readReg (s : State) (kind : FaultKind) (q : Fin 8) : (s.takeFault kind).readReg q = s.readReg q := rfl

@[simp] theorem State.takeOutputAnswer_regs (s : State) : (s.takeOutputAnswer).regs = s.regs := rfl
@[simp] theorem State.takeOutputAnswer_pc (s : State) : (s.takeOutputAnswer).pc = s.pc := rfl
@[simp] theorem State.takeOutputAnswer_mem (s : State) : (s.takeOutputAnswer).mem = s.mem := rfl
@[simp] theorem State.takeOutputAnswer_stack (s : State) : (s.takeOutputAnswer).stack = s.stack := rfl
@[simp] theorem State.takeOutputAnswer_inputBuf (s : State) : (s.takeOutputAnswer).inputBuf = s.inputBuf := rfl
@[simp] theorem State.takeOutputAnswer_status (s : State) : (s.takeOutputAnswer).status = s.status := rfl
@[simp] theorem State.takeOutputAnswer_lineAnswers (s : State) : (s.takeOutputAnswer).lineAnswers = s.lineAnswers := rfl
@[simp] theorem State.takeOutputAnswer_outAnswers (s : State) : (s.takeOutputAnswer).outAnswers = s.outAnswers.tail := rfl
@[simp] theorem State.takeOutputAnswer_output (s : State) : (s.takeOutputAnswer).output = s.output := rfl
@[simp] theorem State.takeOutputAnswer_freeCount (s : State) : (s.takeOutputAnswer).freeCount = s.freeCount := rfl
@[simp] theorem State.takeOutputAnswer_readReg (s : State) (q : Fin 8) : (s.takeOutputAnswer).readReg q = s.readReg q := rfl

@[simp] theorem State.emitByte_regs (s : State) (b : Byte) : (s.emitByte b).regs = s.regs := rfl
@[simp] theorem State.emitByte_pc (s : State) (b : Byte) : (s.emitByte b).pc = s.pc := rfl
@[simp] theorem State.emitByte_mem (s : State) (b : Byte) : (s.emitByte b).mem = s.mem := rfl
@[simp] theorem State.emitByte_stack (s : State) (b : Byte) : (s.emitByte b).stack = s.stack := rfl
@[simp] theorem State.emitByte_inputBuf (s : State) (b : Byte) : (s.emitByte b).inputBuf = s.inputBuf := rfl
@[simp] theorem State.emitByte_status (s : State) (b : Byte) : (s.emitByte b).status = s.status := rfl
@[simp] theorem State.emitByte_lineAnswers (s : State) (b : Byte) : (s.emitByte b).lineAnswers = s.lineAnswers := rfl
@[simp] theorem State.emitByte_outAnswers (s : State) (b : Byte) : (s.emitByte b).outAnswers = s.outAnswers := rfl
@[simp] theorem State.emitByte_output (s : State) (b : Byte) : (s.emitByte b).output = s.output ++ [b] := rfl
@[simp] theorem State.emitByte_freeCount (s : State) (b : Byte) : (s.emitByte b).freeCount = s.freeCount := rfl
@[simp] theorem State.emitByte_readReg (s : State) (b : Byte) (q : Fin 8) : (s.emitByte b).readReg q = s.readReg q := rfl

@[simp] theorem State.setInput_regs (s : State) (buf : List Word) (answers : List LineAnswer) : (s.setInput buf answers).regs = s.regs := rfl
@[simp] theorem State.setInput_pc (s : State) (buf : List Word) (answers : List LineAnswer) : (s.setInput buf answers).pc = s.pc := rfl
@[simp] theorem State.setInput_mem (s : State) (buf : List Word) (answers : List LineAnswer) : (s.setInput buf answers).mem = s.mem := rfl
@[simp] theorem State.setInput_stack (s : State) (buf : List Word) (answers : List LineAnswer) : (s.setInput buf answers).stack = s.stack := rfl
@[simp] theorem State.setInput_inputBuf (s : State) (buf : List Word) (answers : List LineAnswer) : (s.setInput buf answers).inputBuf = buf := rfl
@[simp] theorem State.setInput_status (s : State) (buf : List Word) (answers : List LineAnswer) : (s.setInput buf answers).status = s.status := rfl
@[simp] theorem State.setInput_lineAnswers (s : State) (buf : List Word) (answers : List LineAnswer) : (s.setInput buf answers).lineAnswers = answers := rfl
@[simp] theorem State.setInput_outAnswers (s : State) (buf : List Word) (answers : List LineAnswer) : (s.setInput buf answers).outAnswers = s.outAnswers := rfl
@[simp] theorem State.setInput_output (s : State) (buf : List Word) (answers : List LineAnswer) : (s.setInput buf answers).output = s.output := rfl
@[simp] theorem State.setInput_freeCount (s : State) (buf : List Word) (answers : List LineAnswer) : (s.setInput buf answers).freeCount = s.freeCount := rfl
@[simp] theorem State.setInput_readReg (s : State) (buf : List Word) (answers : List LineAnswer) (q : Fin 8) : (s.setInput buf answers).readReg q = s.readReg q := rfl

@[simp] theorem State.freeInput_regs (s : State) : (s.freeInput).regs = s.regs := rfl
@[simp] theorem State.freeInput_pc (s : State) : (s.freeInput).pc = s.pc := rfl
@[simp] theorem State.freeInput_mem (s : State) : (s.freeInput).mem = s.mem := rfl
@[simp] theorem State.freeInput_stack (s : State) : (s.freeInput).stack = s.stack := rfl
@[simp] theorem State.freeInput_inputBuf (s : State) : (s.freeInput).inputBuf = Config.freeBuffer s.freeCount := rfl
@[simp] theorem State.freeInput_status (s : State) : (s.freeInput).status = s.status := rfl
@[simp] theorem State.freeInput_lineAnswers (s : State) : (s.freeInput).lineAnswers = s.lineAnswers := rfl
@[simp] theorem State.freeInput_outAnswers (s : State) : (s.freeInput).outAnswers = s.outAnswers := rfl
@[simp] theorem State.freeInput_output (s : State) : (s.freeInput).output = s.output := rfl
@[simp] theorem State.freeInput_freeCount (s : State) : (s.freeInput).freeCount = s.freeCount + 1 := rfl
@[simp] theorem State.freeInput_readReg (s : State) (q : Fin 8) : (s.freeInput).readReg q = s.readReg q := rfl

@[simp] theorem State.deliverLine_regs (s : State) (answer : LineAnswer) : (s.deliverLine answer).regs = s.regs := rfl
@[simp] theorem State.deliverLine_pc (s : State) (answer : LineAnswer) : (s.deliverLine answer).pc = s.pc := rfl
@[simp] theorem State.deliverLine_mem (s : State) (answer : LineAnswer) : (s.deliverLine answer).mem = s.mem := rfl
@[simp] theorem State.deliverLine_stack (s : State) (answer : LineAnswer) : (s.deliverLine answer).stack = s.stack := rfl
@[simp] theorem State.deliverLine_inputBuf (s : State) (answer : LineAnswer) : (s.deliverLine answer).inputBuf = s.inputBuf := rfl
@[simp] theorem State.deliverLine_status (s : State) (answer : LineAnswer) : (s.deliverLine answer).status = s.status := rfl
@[simp] theorem State.deliverLine_lineAnswers (s : State) (answer : LineAnswer) : (s.deliverLine answer).lineAnswers = s.lineAnswers ++ [answer] := rfl
@[simp] theorem State.deliverLine_outAnswers (s : State) (answer : LineAnswer) : (s.deliverLine answer).outAnswers = s.outAnswers := rfl
@[simp] theorem State.deliverLine_output (s : State) (answer : LineAnswer) : (s.deliverLine answer).output = s.output := rfl
@[simp] theorem State.deliverLine_freeCount (s : State) (answer : LineAnswer) : (s.deliverLine answer).freeCount = s.freeCount := rfl
@[simp] theorem State.deliverLine_readReg (s : State) (answer : LineAnswer) (q : Fin 8) : (s.deliverLine answer).readReg q = s.readReg q := rfl

@[simp] theorem State.answerOutput_regs (s : State) (answer : OutputAnswer) : (s.answerOutput answer).regs = s.regs := rfl
@[simp] theorem State.answerOutput_pc (s : State) (answer : OutputAnswer) : (s.answerOutput answer).pc = s.pc := rfl
@[simp] theorem State.answerOutput_mem (s : State) (answer : OutputAnswer) : (s.answerOutput answer).mem = s.mem := rfl
@[simp] theorem State.answerOutput_stack (s : State) (answer : OutputAnswer) : (s.answerOutput answer).stack = s.stack := rfl
@[simp] theorem State.answerOutput_inputBuf (s : State) (answer : OutputAnswer) : (s.answerOutput answer).inputBuf = s.inputBuf := rfl
@[simp] theorem State.answerOutput_status (s : State) (answer : OutputAnswer) : (s.answerOutput answer).status = s.status := rfl
@[simp] theorem State.answerOutput_lineAnswers (s : State) (answer : OutputAnswer) : (s.answerOutput answer).lineAnswers = s.lineAnswers := rfl
@[simp] theorem State.answerOutput_outAnswers (s : State) (answer : OutputAnswer) : (s.answerOutput answer).outAnswers = s.outAnswers ++ [answer] := rfl
@[simp] theorem State.answerOutput_output (s : State) (answer : OutputAnswer) : (s.answerOutput answer).output = s.output := rfl
@[simp] theorem State.answerOutput_freeCount (s : State) (answer : OutputAnswer) : (s.answerOutput answer).freeCount = s.freeCount := rfl
@[simp] theorem State.answerOutput_readReg (s : State) (answer : OutputAnswer) (q : Fin 8) : (s.answerOutput answer).readReg q = s.readReg q := rfl

/-- Reading a register after a write: the written one has the value, every other its old one. -/
theorem State.writeReg_readReg (s : State) (r q : Fin 8) (v : Word) :
    (s.writeReg r v).readReg q = if q = r then v else s.readReg q := by
  simp only [State.readReg, State.writeReg, Fin.getElem_fin, Vector.getElem_set, Fin.ext_iff]
  split <;> split <;> first | rfl | omega

@[simp] theorem State.writeReg_readReg_self (s : State) (r : Fin 8) (v : Word) : (s.writeReg r v).readReg r = v := by
  simp [State.writeReg_readReg]

theorem State.writeReg_readReg_ne (s : State) {r q : Fin 8} (v : Word) (h : q ≠ r) :
    (s.writeReg r v).readReg q = s.readReg q := by
  simp [State.writeReg_readReg, h]

end Sys2Proof.Machine
end

