-- ==== Sys2Proof/Laws/Ops.lean ====
section
/-! SUPPORT. For each shared operation, everything it can answer. -/

namespace Sys2Proof.Machine

/-! ### Sequencing -/

@[simp] theorem ok_bind {α β : Type} (a : α) (f : α → Except FaultKind β) : (Except.ok a >>= f) = f a := rfl

@[simp] theorem error_bind {α β : Type} (k : FaultKind) (f : α → Except FaultKind β) :
    ((Except.error k : Except FaultKind α) >>= f) = .error k := rfl

theorem bind_eq_ok {α β : Type} {x : Except FaultKind α} {f : α → Except FaultKind β} {b : β} :
    (x >>= f) = .ok b ↔ ∃ a, x = .ok a ∧ f a = .ok b := by
  cases x <;> simp

theorem bind_eq_error {α β : Type} {x : Except FaultKind α} {f : α → Except FaultKind β} {k : FaultKind} :
    (x >>= f) = .error k ↔ x = .error k ∨ ∃ a, x = .ok a ∧ f a = .error k := by
  cases x <;> simp

@[simp] theorem settle_ok (s t : State) : settle s (.ok t) = t := rfl

@[simp] theorem settle_error (s : State) (k : FaultKind) : settle s (.error k) = s.takeFault k := rfl

/-- A completed instruction ends in its handler's state or with the handler's fault taken. -/
theorem complete_next {s t : State} {h : Except FaultKind State} (e : complete s h = .next t) :
    h = .ok t ∨ ∃ k, h = .error k ∧ t = s.takeFault k := by
  cases h <;> simp_all [complete]

/-! ### Operands -/

@[simp] theorem resolve_literal (s : State) (v : Word) : resolve s (.literal v) = .ok v := rfl
@[simp] theorem resolve_register (s : State) (r : Fin 8) : resolve s (.register r) = .ok (s.readReg r) := rfl
@[simp] theorem resolve_invalid (s : State) (v : Word) : resolve s (.invalid v) = .error .invalidOperand := rfl

/-- Resolving fails exactly on an invalid word, with InvalidOperand. -/
theorem resolve_eq_error_iff {s : State} {o : Operand} {k : FaultKind} :
    resolve s o = .error k ↔ o.isInvalid = true ∧ k = .invalidOperand := by
  cases o <;> simp [Operand.isInvalid, eq_comm]

theorem resolve_of_isInvalid {s : State} {o : Operand} (h : o.isInvalid = true) : resolve s o = .error .invalidOperand :=
  resolve_eq_error_iff.2 ⟨h, rfl⟩

theorem resolve_ok_of_not_isInvalid {o : Operand} (s : State) (h : o.isInvalid = false) : ∃ v, resolve s o = .ok v := by
  cases o <;> simp_all [Operand.isInvalid]

/-- Resolving looks at the registers only. -/
theorem resolve_congr {s t : State} (h : t.regs = s.regs) (o : Operand) : resolve t o = resolve s o := by
  cases o <;> simp [State.readReg, h]

@[simp] theorem resolve_advance (s : State) (n : Nat) (o : Operand) : resolve (s.advance n) o = resolve s o :=
  resolve_congr (by simp) o

@[simp] theorem writeDest_register (s : State) (r : Fin 8) (v : Word) :
    writeDest s (.register r) v = .ok (s.writeReg r v) := rfl

theorem writeDest_ok {s t : State} {a : Operand} {v : Word} (h : writeDest s a v = .ok t) :
    ∃ r, a = .register r ∧ t = s.writeReg r v := by
  cases a <;> simp_all [writeDest]

theorem writeDest_eq_error_iff {s : State} {a : Operand} {v : Word} {k : FaultKind} :
    writeDest s a v = .error k ↔ a.isRegister = false ∧ k = .invalidDestination := by
  cases a <;> simp [writeDest, Operand.isRegister, eq_comm]

theorem writeDest_of_not_isRegister {s : State} {a : Operand} (v : Word) (h : a.isRegister = false) :
    writeDest s a v = .error .invalidDestination := writeDest_eq_error_iff.2 ⟨h, rfl⟩

theorem unaryOp_ok {f : Word → Except FaultKind Word} {a b : Operand} {s t : State} (h : unaryOp f a b s = .ok t) :
    ∃ r vb v, a = .register r ∧ resolve s b = .ok vb ∧ f vb = .ok v ∧ t = (s.advance 3).writeReg r v := by
  simp only [unaryOp, bind_eq_ok] at h
  obtain ⟨vb, hb, v, hv, hw⟩ := h
  obtain ⟨r, ha, ht⟩ := writeDest_ok hw
  exact ⟨r, vb, v, ha, hb, hv, ht⟩

theorem unaryOp_error {f : Word → Except FaultKind Word} {a b : Operand} {s : State} {k : FaultKind}
    (h : unaryOp f a b s = .error k) :
    k = .invalidOperand ∨ (∃ vb, f vb = .error k) ∨ k = .invalidDestination := by
  simp only [unaryOp, bind_eq_error, resolve_eq_error_iff, writeDest_eq_error_iff] at h
  obtain h | ⟨vb, _, h | ⟨_, _, h⟩⟩ := h
  · exact .inl h.2
  · exact .inr (.inl ⟨vb, h⟩)
  · exact .inr (.inr h.2)

theorem binaryOp_ok {f : Word → Word → Except FaultKind Word} {a b c : Operand} {s t : State}
    (h : binaryOp f a b c s = .ok t) :
    ∃ r vb vc v, a = .register r ∧ resolve s b = .ok vb ∧ resolve s c = .ok vc ∧ f vb vc = .ok v ∧
      t = (s.advance 4).writeReg r v := by
  simp only [binaryOp, bind_eq_ok] at h
  obtain ⟨vb, hb, vc, hc, v, hv, hw⟩ := h
  obtain ⟨r, ha, ht⟩ := writeDest_ok hw
  exact ⟨r, vb, vc, v, ha, hb, hc, hv, ht⟩

theorem binaryOp_error {f : Word → Word → Except FaultKind Word} {a b c : Operand} {s : State} {k : FaultKind}
    (h : binaryOp f a b c s = .error k) :
    k = .invalidOperand ∨ (∃ vb vc, f vb vc = .error k) ∨ k = .invalidDestination := by
  simp only [binaryOp, bind_eq_error, resolve_eq_error_iff, writeDest_eq_error_iff] at h
  obtain h | ⟨vb, _, h | ⟨vc, _, h | ⟨_, _, h⟩⟩⟩ := h
  · exact .inl h.2
  · exact .inl h.2
  · exact .inr (.inl ⟨vb, vc, h⟩)
  · exact .inr (.inr h.2)

/-! ### The flag computations -/

@[simp] theorem isNonzero_zero : isNonzero 0#16 = false := rfl

theorem isNonzero_of_ne {v : Word} (h : v ≠ 0) : isNonzero v = true := decide_eq_true h

theorem isNonzero_eq_false_iff {v : Word} : isNonzero v = false ↔ v = 0 := by
  simp [isNonzero]

@[simp] theorem boolWord_true : boolWord true = 1 := rfl
@[simp] theorem boolWord_false : boolWord false = 0 := rfl

/-! ### The instruction pointer -/

/-- Within memory the advance does not wrap. -/
theorem pc_add_toNat {p : Word} {n : Nat} (h : p.toNat + n ≤ 32768) : (p + BitVec.ofNat 16 n).toNat = p.toNat + n := by
  simp only [BitVec.toNat_add, BitVec.toNat_ofNat]
  omega

/-! ### Access primitives -/

theorem memRead_ok {s : State} {a v : Word} (h : memRead s a = .ok v) :
    a.toNat < 32768 ∧ v = s.mem.readWord a.toNat := by
  simp only [memRead] at h
  split at h <;> simp_all

theorem memRead_error {s : State} {a : Word} {k : FaultKind} (h : memRead s a = .error k) :
    32768 ≤ a.toNat ∧ k = .addressOutOfRange := by
  simp only [memRead] at h
  split at h <;> simp_all

theorem memWrite_ok {s t : State} {a v : Word} (h : memWrite s a v = .ok t) :
    a.toNat < 32768 ∧ t = s.storeWord a.toNat v := by
  simp only [memWrite] at h
  split at h <;> simp_all

theorem memWrite_error {s : State} {a v : Word} {k : FaultKind} (h : memWrite s a v = .error k) :
    32768 ≤ a.toNat ∧ k = .addressOutOfRange := by
  simp only [memWrite] at h
  split at h <;> simp_all

theorem jumpTo_ok {s t : State} {a : Word} (h : jumpTo s a = .ok t) : a.toNat < 32768 ∧ t = s.setPc a := by
  simp only [jumpTo] at h
  split at h <;> simp_all

theorem jumpTo_error {s : State} {a : Word} {k : FaultKind} (h : jumpTo s a = .error k) :
    32768 ≤ a.toNat ∧ k = .addressOutOfRange := by
  simp only [jumpTo] at h
  split at h <;> simp_all

/-! ### The stack -/

@[simp] theorem stackFull_none (s : State) : stackFull none s = false := rfl

@[simp] theorem pushWord_none (s : State) (v : Word) : pushWord none s v = .ok (s.setStack (s.stack ++ [v])) := rfl

theorem pushWord_ok {c : Option Nat} {s t : State} {v : Word} (h : pushWord c s v = .ok t) :
    t = s.setStack (s.stack ++ [v]) := by
  simp only [pushWord] at h
  split at h <;> simp_all

theorem pushWord_error {c : Option Nat} {s : State} {v : Word} {k : FaultKind} (h : pushWord c s v = .error k) :
    stackFull c s = true ∧ k = .stackOverflow := by
  simp only [pushWord] at h
  split at h <;> simp_all

theorem popWord_append {s : State} {st : List Word} {v : Word} (h : s.stack = st ++ [v]) :
    popWord s = .ok (v, s.setStack st) := by
  simp [popWord, h]

theorem popWord_ok {s t : State} {v : Word} (h : popWord s = .ok (v, t)) :
    s.stack = t.stack ++ [v] ∧ t = s.setStack t.stack := by
  rcases List.eq_nil_or_concat' s.stack with h' | ⟨st, w, h'⟩
  · simp [popWord, h'] at h
  · rw [popWord_append h'] at h
    injection h with h
    injection h with hv ht
    subst ht hv
    exact ⟨h', rfl⟩

theorem popWord_eq_error_iff {s : State} {k : FaultKind} :
    popWord s = .error k ↔ s.stack = [] ∧ k = .stackUnderflow := by
  rcases List.eq_nil_or_concat' s.stack with h' | ⟨st, w, h'⟩
  · simp [popWord, h', eq_comm]
  · simp [popWord_append h', h']

/-! ### The fetch unit -/

theorem fetch_ok {m : Memory} {p : Word} {i : Instr} (h : fetch m p = .ok i) :
    ∃ rest, decode (m.wordsFrom p.toNat 4) = .ok (i, rest) := by
  simp only [fetch, Config.maxWords] at h
  split at h <;> simp_all

theorem fetch_of_decode {m : Memory} {p : Word} {i : Instr} {rest : List Word}
    (h : decode (m.wordsFrom p.toNat 4) = .ok (i, rest)) : fetch m p = .ok i := by
  simp [fetch, h]

theorem fetch_error {m : Memory} {p : Word} {k : FaultKind} (h : fetch m p = .error k) :
    k = .addressOutOfRange ∨ k = .invalidOpcode := by
  simp only [fetch] at h
  split at h <;> simp_all [eq_comm]

end Sys2Proof.Machine
end

