-- ==== Sys2Proof/Laws/Meanings.lean ====
section
/-! SUPPORT. What an instruction's meaning can do, said once for all 22: `Effect` lists the cases and `exec_effect` is the
inversion every whole-machine claim goes through. -/

namespace Sys2Proof.Machine

@[simp] theorem State.takeFault_faultedWith (s : State) (kind : FaultKind) : (s.takeFault kind).faultedWith kind :=
  ⟨s.pc, rfl⟩

/-! ### The handlers that are not one of the two register-writing shapes -/

theorem jumpOperand_ok {s t : State} {b : Operand} (h : jumpOperand s b = .ok t) :
    ∃ a, resolve s b = .ok a ∧ a.toNat < 32768 ∧ t = s.setPc a := by
  simp only [jumpOperand, bind_eq_ok] at h
  obtain ⟨a, ha, hj⟩ := h
  exact ⟨a, ha, jumpTo_ok hj⟩

theorem jumpOperand_error {s : State} {b : Operand} {k : FaultKind} (h : jumpOperand s b = .error k) :
    k = .invalidOperand ∨ k = .addressOutOfRange := by
  simp only [jumpOperand, bind_eq_error, resolve_eq_error_iff] at h
  obtain h | ⟨a, _, h⟩ := h
  · exact .inl h.2
  · exact .inr (jumpTo_error h).2

theorem branchHandler_ok {p : Word → Bool} {a b : Operand} {s t : State} (h : branchHandler p a b s = .ok t) :
    ∃ v, resolve s a = .ok v ∧ ((p v = false ∧ t = s.advance 3) ∨
      (p v = true ∧ ∃ q, q.toNat < 32768 ∧ t = (s.advance 3).setPc q)) := by
  simp only [branchHandler, bind_eq_ok] at h
  obtain ⟨v, hv, h⟩ := h
  refine ⟨v, hv, ?_⟩
  split at h
  · obtain ⟨q, _, hq, ht⟩ := jumpOperand_ok h
    exact .inr ⟨‹_›, q, hq, ht⟩
  · injection h with h
    exact .inl ⟨by simp_all, h.symm⟩

theorem branchHandler_error {p : Word → Bool} {a b : Operand} {s : State} {k : FaultKind}
    (h : branchHandler p a b s = .error k) : k = .invalidOperand ∨ k = .addressOutOfRange := by
  simp only [branchHandler, bind_eq_error, resolve_eq_error_iff] at h
  obtain h | ⟨v, _, h⟩ := h
  · exact .inl h.2
  · split at h
    · exact jumpOperand_error h
    · simp at h

theorem pushHandler_ok {c : Option Nat} {a : Operand} {s t : State} (h : pushHandler c a s = .ok t) :
    ∃ v, resolve s a = .ok v ∧ t = (s.advance 2).setStack (s.stack ++ [v]) := by
  simp only [pushHandler, bind_eq_ok] at h
  obtain ⟨v, hv, h⟩ := h
  exact ⟨v, hv, pushWord_ok h⟩

theorem pushHandler_none_error {a : Operand} {s : State} {k : FaultKind} (h : pushHandler none a s = .error k) :
    k = .invalidOperand := by
  simp only [pushHandler, bind_eq_error, resolve_eq_error_iff, pushWord_none] at h
  obtain h | ⟨v, _, h⟩ := h
  · exact h.2
  · simp at h

theorem callHandler_ok {c : Option Nat} {a : Operand} {s t : State} (h : callHandler c a s = .ok t) :
    ∃ q, q.toNat < 32768 ∧ t = ((s.advance 2).setPc q).setStack (s.stack ++ [s.pc + 2]) := by
  simp only [callHandler, bind_eq_ok] at h
  obtain ⟨u, hu, h⟩ := h
  obtain ⟨q, _, hq, rfl⟩ := jumpOperand_ok hu
  exact ⟨q, hq, pushWord_ok h⟩

theorem callHandler_none_error {a : Operand} {s : State} {k : FaultKind} (h : callHandler none a s = .error k) :
    k = .invalidOperand ∨ k = .addressOutOfRange := by
  simp only [callHandler, bind_eq_error, pushWord_none] at h
  obtain h | ⟨u, _, h⟩ := h
  · exact jumpOperand_error h
  · simp at h

theorem popHandler_ok {a : Operand} {s t : State} (h : popHandler a s = .ok t) :
    ∃ r st v, a = .register r ∧ s.stack = st ++ [v] ∧ t = ((s.advance 2).setStack st).writeReg r v := by
  simp only [popHandler, bind_eq_ok] at h
  obtain ⟨⟨v, u⟩, hu, h⟩ := h
  obtain ⟨hs, hu⟩ := popWord_ok hu
  obtain ⟨r, ha, ht⟩ := writeDest_ok h
  exact ⟨r, u.stack, v, ha, hs, by rw [ht]; exact congrArg (·.writeReg r v) hu⟩

theorem popHandler_error {a : Operand} {s : State} {k : FaultKind} (h : popHandler a s = .error k) :
    k = .stackUnderflow ∨ k = .invalidDestination := by
  simp only [popHandler, bind_eq_error, popWord_eq_error_iff, writeDest_eq_error_iff] at h
  obtain h | ⟨_, _, h⟩ := h
  · exact .inl h.2
  · exact .inr h.2

theorem retHandler_ok {s t : State} (h : retHandler s = .ok t) :
    ∃ st q, s.stack = st ++ [q] ∧ q.toNat < 32768 ∧ t = ((s.advance 1).setStack st).setPc q := by
  simp only [retHandler, bind_eq_ok] at h
  obtain ⟨⟨q, u⟩, hu, h⟩ := h
  obtain ⟨hs, hu⟩ := popWord_ok hu
  obtain ⟨hq, ht⟩ := jumpTo_ok h
  exact ⟨u.stack, q, hs, hq, by rw [ht]; exact congrArg (·.setPc q) hu⟩

theorem retHandler_error {s : State} {k : FaultKind} (hs : s.stack ≠ []) (h : retHandler s = .error k) :
    k = .addressOutOfRange := by
  simp only [retHandler, bind_eq_error, popWord_eq_error_iff] at h
  obtain h | ⟨_, _, h⟩ := h
  · exact absurd h.1 hs
  · exact (jumpTo_error h).2

theorem wmemHandler_ok {a b : Operand} {s t : State} (h : wmemHandler a b s = .ok t) :
    ∃ ea v, resolve s a = .ok ea ∧ resolve s b = .ok v ∧ ea.toNat < 32768 ∧
      t = (s.advance 3).storeWord ea.toNat v := by
  simp only [wmemHandler, bind_eq_ok] at h
  obtain ⟨ea, ha, v, hv, h⟩ := h
  obtain ⟨he, ht⟩ := memWrite_ok h
  exact ⟨ea, v, ha, hv, he, ht⟩

theorem wmemHandler_error {a b : Operand} {s : State} {k : FaultKind} (h : wmemHandler a b s = .error k) :
    k = .invalidOperand ∨ k = .addressOutOfRange := by
  simp only [wmemHandler, bind_eq_error, resolve_eq_error_iff] at h
  obtain h | ⟨_, _, h | ⟨_, _, h⟩⟩ := h
  · exact .inl h.2
  · exact .inl h.2
  · exact .inr (memWrite_error h).2

/-! ### All that an instruction can do -/

/-- The state `t` that `exec i s` can answer, case by case. -/
inductive Effect (i : Instr) (s : State) : State → Prop where
  /-- a fault is taken, with nothing else changed -/
  | fault (kind : FaultKind) (may : kind ∈ i.mayRaise) : Effect i s (s.takeFault kind)
  /-- pc moves past the instruction, nothing else: noop, an untaken branch -/
  | stand (h : i.destination? = none ∧ i ≠ .halt ∧ i ≠ .ret ∧ ∀ a, i ≠ .call a ∧ i ≠ .jmp a) :
      Effect i s (s.advance i.length)
  /-- the destination register is written -/
  | write (r : Fin 8) (v : Word) (dest : i.destination? = some (.register r)) (hp : ∀ a, i ≠ .pop a) (hi : ∀ a, i ≠ .in_ a) :
      Effect i s ((s.advance i.length).writeReg r v)
  /-- halt, or ret on an empty stack -/
  | halted (h : i = .halt ∨ (i = .ret ∧ s.stack = [])) : Effect i s ((s.advance i.length).enterHalted)
  /-- pc is overwritten: jmp, a taken branch -/
  | jump (q : Word) (hq : q.toNat < 32768)
      (h : (∃ a, i = .jmp a) ∨ (∃ a b v, i = .jt a b ∧ resolve s a = .ok v ∧ v ≠ 0) ∨
        (∃ a b, i = .jf a b ∧ resolve s a = .ok 0)) : Effect i s (s.setPc q)
  | push (a : Operand) (v : Word) (h : i = .push a) : Effect i s ((s.advance 2).setStack (s.stack ++ [v]))
  | pop (a : Operand) (r : Fin 8) (st : List Word) (v : Word) (h : i = .pop a) (ha : a = .register r)
      (hs : s.stack = st ++ [v]) : Effect i s (((s.advance 2).setStack st).writeReg r v)
  | call (a : Operand) (q : Word) (h : i = .call a) (hq : q.toNat < 32768) :
      Effect i s ((s.setPc q).setStack (s.stack ++ [s.pc + 2]))
  | ret (st : List Word) (q : Word) (h : i = .ret) (hs : s.stack = st ++ [q]) (hq : q.toNat < 32768) :
      Effect i s ((s.setStack st).setPc q)
  | store (a b : Operand) (ea v : Word) (h : i = .wmem a b) (ha : resolve s a = .ok ea) (hb : resolve s b = .ok v)
      (hea : ea.toNat < 32768) : Effect i s ((s.advance 3).storeWord ea.toNat v)
  | emitted (a : Operand) (b : Byte) (h : i = .out a) (ho : s.outputAnswer = .ok) :
      Effect i s ((s.takeOutputAnswer.emitByte b).advance 2)
  | outFailed (a : Operand) (h : i = .out a) (ho : s.outputAnswer = .channelError) :
      Effect i s (s.takeOutputAnswer.takeFault .ioError)
  | waits (a : Operand) (h : i = .in_ a) (hb : s.inputBuf = []) (hl : s.lineAnswers = []) : Effect i s s
  | inFailed (a : Operand) (answers : List LineAnswer) (h : i = .in_ a) (hb : s.inputBuf = []) :
      Effect i s ((s.setInput [] answers).takeFault .ioError)
  | delivered (a : Operand) (r : Fin 8) (ch : Word) (buf : List Word) (answers : List LineAnswer) (h : i = .in_ a)
      (ha : a = .register r) (hn : s.inputBuf ≠ [] ∨ s.lineAnswers ≠ []) :
      Effect i s (((s.setInput buf answers).advance 2).writeReg r ch)
  | charLost (a : Operand) (buf : List Word) (answers : List LineAnswer) (h : i = .in_ a) (ha : a.isRegister = false) :
      Effect i s ((s.setInput buf answers).freeInput.takeFault .invalidDestination)

theorem nextInputChar_cases (s : State) :
    (nextInputChar s = .wait ∧ s.inputBuf = [] ∧ s.lineAnswers = []) ∨
    (∃ answers, nextInputChar s = .failed (s.setInput [] answers) ∧ s.inputBuf = []) ∨
    (∃ ch buf answers, nextInputChar s = .char ch (s.setInput buf answers) ∧ (s.inputBuf ≠ [] ∨ s.lineAnswers ≠ [])) := by
  unfold nextInputChar
  split <;> simp_all

theorem inEffect_effect (a : Operand) (s : State) : Effect (.in_ a) s (inEffect a s) := by
  unfold inEffect
  rcases nextInputChar_cases s with ⟨h, hb, hl⟩ | ⟨answers, h, hb⟩ | ⟨ch, buf, answers, h, hn⟩ <;> rw [h]
  · exact .waits a rfl hb hl
  · exact .inFailed a answers rfl hb
  · cases hr : a with
    | register r => exact .delivered _ r ch buf answers rfl rfl hn
    | literal v => exact .charLost _ buf answers rfl rfl
    | invalid v => exact .charLost _ buf answers rfl rfl

theorem outEffect_effect (a : Operand) (s : State) : Effect (.out a) s (outEffect a s) := by
  unfold outEffect
  cases hb : outByte s a with
  | error k =>
    simp only [outByte, bind_eq_error, resolve_eq_error_iff] at hb
    obtain h | ⟨v, _, h⟩ := hb
    · exact .fault k (by simp [Instr.mayRaise, h.2])
    · split at h
      · simp at h
      · injection h with h
        exact .fault k (by simp [Instr.mayRaise, ← h])
  | ok b =>
    simp only [emit]
    split
    · exact .emitted a b rfl ‹_›
    · exact .outFailed a rfl ‹_›

/-- A register-writing meaning of format W2: writes its destination, or takes one of the faults named. -/
theorem unaryOp_effect {f : Word → Except FaultKind Word} {a b : Operand} {s t : State} {i : Instr}
    (h : complete s (unaryOp f a b s) = .next t) (hd : i.destination? = some a) (hl : i.length = 3)
    (hp : ∀ a, i ≠ .pop a) (hi : ∀ a, i ≠ .in_ a)
    (hk : ∀ k, k = .invalidOperand ∨ (∃ v, f v = .error k) ∨ k = .invalidDestination → k ∈ i.mayRaise) : Effect i s t := by
  obtain e | ⟨k, e, rfl⟩ := complete_next h
  · obtain ⟨r, vb, v, rfl, -, -, rfl⟩ := unaryOp_ok e
    exact hl ▸ .write r v hd hp hi
  · exact .fault k (hk k (unaryOp_error e))

/-- A register-writing meaning of format W3. -/
theorem binaryOp_effect {f : Word → Word → Except FaultKind Word} {a b c : Operand} {s t : State} {i : Instr}
    (h : complete s (binaryOp f a b c s) = .next t) (hd : i.destination? = some a) (hl : i.length = 4)
    (hp : ∀ a, i ≠ .pop a) (hi : ∀ a, i ≠ .in_ a)
    (hk : ∀ k, k = .invalidOperand ∨ (∃ v w, f v w = .error k) ∨ k = .invalidDestination → k ∈ i.mayRaise) :
    Effect i s t := by
  obtain e | ⟨k, e, rfl⟩ := complete_next h
  · obtain ⟨r, vb, vc, v, rfl, -, -, -, rfl⟩ := binaryOp_ok e
    exact hl ▸ .write r v hd hp hi
  · exact .fault k (hk k (binaryOp_error e))

theorem modWords_error {x y : Word} {k : FaultKind} (h : modWords x y = .error k) : k = .divideByZero := by
  simp only [modWords] at h
  split at h <;> simp_all

/-- Everything an instruction can do. -/
theorem exec_effect {i : Instr} {s t : State} (h : exec i s = .next t) : Effect i s t := by
  cases i with
  | halt => injection h with h; subst h; exact .halted (.inl rfl)
  | noop => injection h with h; subst h; exact .stand (by simp [Instr.destination?])
  | set a b => exact unaryOp_effect h rfl rfl (by simp) (by simp) (by rintro k (rfl | ⟨v, h⟩ | rfl) <;> simp_all [Instr.mayRaise])
  | not a b => exact unaryOp_effect h rfl rfl (by simp) (by simp) (by rintro k (rfl | ⟨v, h⟩ | rfl) <;> simp_all [Instr.mayRaise])
  | rmem a b =>
    refine unaryOp_effect h rfl rfl (by simp) (by simp) ?_
    rintro k (rfl | ⟨v, h⟩ | rfl)
    · simp [Instr.mayRaise]
    · simp [Instr.mayRaise, (memRead_error h).2]
    · simp [Instr.mayRaise]
  | eq a b c => exact binaryOp_effect h rfl rfl (by simp) (by simp) (by rintro k (rfl | ⟨v, w, h⟩ | rfl) <;> simp_all [Instr.mayRaise])
  | gt a b c => exact binaryOp_effect h rfl rfl (by simp) (by simp) (by rintro k (rfl | ⟨v, w, h⟩ | rfl) <;> simp_all [Instr.mayRaise])
  | add a b c => exact binaryOp_effect h rfl rfl (by simp) (by simp) (by rintro k (rfl | ⟨v, w, h⟩ | rfl) <;> simp_all [Instr.mayRaise])
  | mult a b c => exact binaryOp_effect h rfl rfl (by simp) (by simp) (by rintro k (rfl | ⟨v, w, h⟩ | rfl) <;> simp_all [Instr.mayRaise])
  | and a b c => exact binaryOp_effect h rfl rfl (by simp) (by simp) (by rintro k (rfl | ⟨v, w, h⟩ | rfl) <;> simp_all [Instr.mayRaise])
  | or a b c => exact binaryOp_effect h rfl rfl (by simp) (by simp) (by rintro k (rfl | ⟨v, w, h⟩ | rfl) <;> simp_all [Instr.mayRaise])
  | mod a b c =>
    refine binaryOp_effect h rfl rfl (by simp) (by simp) ?_
    rintro k (rfl | ⟨v, w, h⟩ | rfl)
    · simp [Instr.mayRaise]
    · simp [Instr.mayRaise, modWords_error h]
    · simp [Instr.mayRaise]
  | push a =>
    obtain e | ⟨k, e, rfl⟩ := complete_next h
    · obtain ⟨v, -, rfl⟩ := pushHandler_ok e
      exact .push a v rfl
    · exact .fault k (by simp [Instr.mayRaise, pushHandler_none_error e])
  | pop a =>
    obtain e | ⟨k, e, rfl⟩ := complete_next h
    · obtain ⟨r, st, v, rfl, hs, rfl⟩ := popHandler_ok e
      exact .pop _ r st v rfl rfl hs
    · exact .fault k (by simpa [Instr.mayRaise] using popHandler_error e)
  | jmp a =>
    obtain e | ⟨k, e, rfl⟩ := complete_next h
    · obtain ⟨q, -, hq, rfl⟩ := jumpOperand_ok e
      exact .jump q hq (.inl ⟨a, rfl⟩)
    · exact .fault k (by simpa [Instr.mayRaise] using jumpOperand_error e)
  | jt a b =>
    obtain e | ⟨k, e, rfl⟩ := complete_next h
    · obtain ⟨v, hv, ⟨-, rfl⟩ | ⟨hp, q, hq, rfl⟩⟩ := branchHandler_ok e
      · exact .stand (by simp [Instr.destination?])
      · exact .jump q hq (.inr (.inl ⟨a, b, v, rfl, hv, by simpa [isNonzero] using hp⟩))
    · exact .fault k (by simpa [Instr.mayRaise] using branchHandler_error e)
  | jf a b =>
    obtain e | ⟨k, e, rfl⟩ := complete_next h
    · obtain ⟨v, hv, ⟨-, rfl⟩ | ⟨hp, q, hq, rfl⟩⟩ := branchHandler_ok e
      · exact .stand (by simp [Instr.destination?])
      · have hv0 : v = 0 := by simpa [isNonzero] using hp
        exact .jump q hq (.inr (.inr ⟨a, b, rfl, hv0 ▸ hv⟩))
    · exact .fault k (by simpa [Instr.mayRaise] using branchHandler_error e)
  | call a =>
    obtain e | ⟨k, e, rfl⟩ := complete_next h
    · obtain ⟨q, hq, rfl⟩ := callHandler_ok e
      exact .call a q rfl hq
    · exact .fault k (by simpa [Instr.mayRaise] using callHandler_none_error e)
  | ret =>
    simp only [exec, execRet] at h
    split at h
    · injection h with h
      subst h
      exact .halted (.inr ⟨rfl, ‹_›⟩)
    · obtain e | ⟨k, e, rfl⟩ := complete_next h
      · obtain ⟨st, q, hs, hq, rfl⟩ := retHandler_ok e
        exact .ret st q rfl hs hq
      · exact .fault k (by simp [Instr.mayRaise, retHandler_error ‹_› e])
  | wmem a b =>
    obtain e | ⟨k, e, rfl⟩ := complete_next h
    · obtain ⟨ea, v, ha, hb, hea, rfl⟩ := wmemHandler_ok e
      exact .store a b ea v rfl ha hb hea
    · exact .fault k (by simpa [Instr.mayRaise] using wmemHandler_error e)
  | out a => injection h with h; subst h; exact outEffect_effect a s
  | in_ a => injection h with h; subst h; exact inEffect_effect a s

/-- What a step can do: keep a terminal state, take a fetch fault, or run the fetched instruction. -/
theorem step_cases {s t : State} (h : step s = .next t) :
    (s.status.isTerminal = true ∧ t = s) ∨
    (s.status = .running ∧ ((∃ k, fetch s.mem s.pc = .error k ∧ t = s.takeFault k) ∨
      ∃ i, fetch s.mem s.pc = .ok i ∧ exec i s = .next t)) := by
  unfold step at h
  split at h
  · refine .inr ⟨‹_›, ?_⟩
    split at h
    · exact .inr ⟨_, ‹_›, h⟩
    · injection h with h
      exact .inl ⟨_, ‹_›, h.symm⟩
  all_goals
    rename_i hs
    injection h with h
    exact .inl ⟨by rw [hs]; rfl, h.symm⟩

end Sys2Proof.Machine
end

