-- ==== Sys2Proof/Laws/PerInstr.lean ====
section
/-! SUPPORT. The family `OpcodeArity`: the arity table has, at each instruction's opcode, the number of operands its
constructor takes (spec/30_encoding.md R77, R81). -/

namespace Sys2Proof.Laws.OpcodeArity

/-- The table's arity at the instruction's opcode is its number of operands. -/
def Statement (i : Instr) : Prop := arity? i.opcode = some i.operands.length

theorem halt : Statement .halt := rfl
theorem set (a b : Operand) : Statement (.set a b) := rfl
theorem push (a : Operand) : Statement (.push a) := rfl
theorem pop (a : Operand) : Statement (.pop a) := rfl
theorem eq (a b c : Operand) : Statement (.eq a b c) := rfl
theorem gt (a b c : Operand) : Statement (.gt a b c) := rfl
theorem jmp (a : Operand) : Statement (.jmp a) := rfl
theorem jt (a b : Operand) : Statement (.jt a b) := rfl
theorem jf (a b : Operand) : Statement (.jf a b) := rfl
theorem add (a b c : Operand) : Statement (.add a b c) := rfl
theorem mult (a b c : Operand) : Statement (.mult a b c) := rfl
theorem mod (a b c : Operand) : Statement (.mod a b c) := rfl
theorem and (a b c : Operand) : Statement (.and a b c) := rfl
theorem or (a b c : Operand) : Statement (.or a b c) := rfl
theorem not (a b : Operand) : Statement (.not a b) := rfl
theorem rmem (a b : Operand) : Statement (.rmem a b) := rfl
theorem wmem (a b : Operand) : Statement (.wmem a b) := rfl
theorem call (a : Operand) : Statement (.call a) := rfl
theorem ret : Statement .ret := rfl
theorem out (a : Operand) : Statement (.out a) := rfl
theorem in_ (a : Operand) : Statement (.in_ a) := rfl
theorem noop : Statement .noop := rfl

end Sys2Proof.Laws.OpcodeArity
end

