-- ==== Sys2Proof/Tests/Slice0.lean ====
section
/-! SUPPORT. The model's own tests. Expected results are those of spec/95_test_vectors.md (the vector's id stands before
each) or the examples of the instruction rules; then a witness for the hypotheses of each statement that has some. -/

namespace Sys2Proof.Tests

open Sys2Proof.Machine

/-! ### WellFormed refuses an ill-formed term of each kind (30_encoding.md R73) -/

theorem test_wf_literal_bound : (Instr.push (.literal 32768)).wf = false := by decide
theorem test_wf_invalid_bound : (Instr.jt (.literal 0) (.invalid 32775)).wf = false := by decide
theorem test_wf_third_operand : (Instr.add (.register 0) (.literal 1) (.literal 40000)).wf = false := by decide
theorem test_wf_accepts_bounds : (Instr.add (.register 7) (.literal 32767) (.invalid 32776)).wf = true := by decide

/-! ### Decoding: the words of each instruction's rule, written out from 30_encoding.md R71 and R77 -/

theorem test_decode_halt : decode [0] = .ok (.halt, []) := by decide
theorem test_decode_set : decode [1, 32768, 4] = .ok (.set (.register 0) (.literal 4), []) := by decide
theorem test_decode_push : decode [2, 7] = .ok (.push (.literal 7), []) := by decide
theorem test_decode_pop : decode [3, 32769] = .ok (.pop (.register 1), []) := by decide
theorem test_decode_eq : decode [4, 32770, 5, 6] = .ok (.eq (.register 2) (.literal 5) (.literal 6), []) := by decide
theorem test_decode_gt : decode [5, 32771, 40000, 1] = .ok (.gt (.register 3) (.invalid 40000) (.literal 1), []) := by decide
theorem test_decode_jmp : decode [6, 10, 21] = .ok (.jmp (.literal 10), [21]) := by decide
theorem test_decode_jt : decode [7, 1, 20] = .ok (.jt (.literal 1) (.literal 20), []) := by decide
theorem test_decode_jf : decode [8, 0, 32770] = .ok (.jf (.literal 0) (.register 2), []) := by decide
theorem test_decode_add : decode [9, 32770, 32768, 32769] = .ok (.add (.register 2) (.register 0) (.register 1), []) := by decide
theorem test_decode_mult : decode [10, 32769, 200, 201] = .ok (.mult (.register 1) (.literal 200) (.literal 201), []) := by decide
theorem test_decode_mod : decode [11, 32768, 10, 3] = .ok (.mod (.register 0) (.literal 10) (.literal 3), []) := by decide
theorem test_decode_and : decode [12, 32768, 12, 10] = .ok (.and (.register 0) (.literal 12) (.literal 10), []) := by decide
theorem test_decode_or : decode [13, 32774, 12, 10] = .ok (.or (.register 6) (.literal 12) (.literal 10), []) := by decide
theorem test_decode_not : decode [14, 32768, 32769] = .ok (.not (.register 0) (.register 1), []) := by decide
theorem test_decode_rmem : decode [15, 32770, 100] = .ok (.rmem (.register 2) (.literal 100), []) := by decide
theorem test_decode_wmem : decode [16, 100, 32769] = .ok (.wmem (.literal 100) (.register 1), []) := by decide
theorem test_decode_call : decode [17, 20] = .ok (.call (.literal 20), []) := by decide
theorem test_decode_ret : decode [18] = .ok (.ret, []) := by decide
theorem test_decode_out : decode [19, 32768] = .ok (.out (.register 0), []) := by decide
theorem test_decode_in : decode [20, 32775] = .ok (.in_ (.register 7), []) := by decide
theorem test_decode_noop : decode [21] = .ok (.noop, []) := by decide
theorem test_decode_illegal : decode [22, 0, 0, 0] = .error .invalidOpcode := by decide
theorem test_decode_truncated : decode [1, 32768] = .error .missingOperand := by decide
theorem test_decode_table_word : decodeTableWord 48 (1 + 32768 * 65536 + 4 * 65536 ^ 2) =
    some (.set (.register 0) (.literal 4)) := by decide

/-! ### One step -/

/-- The reset state with an image of these words. -/
def load (ws : List Word) : State := { State.reset with mem := Memory.ofWords 0 ws }

/-- `load`, with some registers set. -/
def loadRegs (ws : List Word) (regs : Vector Word 8) : State := { load ws with regs := regs }

/-- A view of a next state. -/
def view {α : Type} (f : State → α) : Result → Option α
  | .next t => some (f t)
  | .fault _ => none
  | .refused _ => none

/-- V-HALT-1 -/
theorem test_halt : view (fun t => (t.status, t.pc)) (step (load [0])) = some (.halted, 1) := by decide
/-- V-NOOP-1 -/
theorem test_noop : view (fun t => (t.status, t.pc)) (step { load [0, 0, 0, 0, 0, 21] with pc := 5 }) = some (.running, 6) := by decide
/-- V-SET-1 -/
theorem test_set : view (fun t => (t.readReg 0, t.pc)) (step (load [1, 32768, 4])) = some (4, 3) := by decide
/-- V-RES-4: sources before the destination -/
theorem test_set_fault_order : view (fun t => (t.status, t.pc)) (step (load [1, 10, 32800])) =
    some (.faulted .invalidOperand 0, 0) := by decide
/-- V-PUSH-2 -/
theorem test_push : view (·.stack) (step (loadRegs [2, 32768] #v[40000, 0, 0, 0, 0, 0, 0, 0])) = some [40000] := by decide
/-- V-POP-1 -/
theorem test_pop : view (fun t => (t.readReg 1, t.stack)) (step { load [3, 32769] with stack := [5, 9] }) = some (9, [5]) := by decide
/-- V-POP-3 -/
theorem test_pop_precise : view (fun t => (t.status, t.stack)) (step { load [3, 10] with stack := [5] }) =
    some (.faulted .invalidDestination 0, [5]) := by decide
/-- V-EQ-4: a source that is also the destination -/
theorem test_eq : view (·.readReg 1) (step (load [4, 32769, 32769, 0])) = some 1 := by decide
/-- V-GT-4: unsigned -/
theorem test_gt : view (·.readReg 3) (step (loadRegs [5, 32771, 32768, 32767] #v[40000, 0, 0, 0, 0, 0, 0, 0])) = some 1 := by decide
/-- V-GT-2 -/
theorem test_gt_order : view (·.readReg 3) (step (loadRegs [5, 32771, 3, 5] #v[0, 0, 0, 9, 0, 0, 0, 0])) = some 0 := by decide
/-- V-JMP-1 -/
theorem test_jmp : view (·.pc) (step (load [6, 10])) = some 10 := by decide
/-- V-JMP-2 -/
theorem test_jmp_range : view (fun t => (t.status, t.pc)) (step (loadRegs [6, 32768] #v[32768, 0, 0, 0, 0, 0, 0, 0])) =
    some (.faulted .addressOutOfRange 0, 0) := by decide
/-- V-JT-3 -/
theorem test_jt_untaken : view (fun t => (t.status, t.pc)) (step (load [7, 0, 40000])) = some (.running, 3) := by decide
/-- V-JT-5 -/
theorem test_jt_register : view (·.pc) (step (loadRegs [7, 32768, 32769] #v[40000, 12, 0, 0, 0, 0, 0, 0])) = some 12 := by decide
/-- V-JF-1 -/
theorem test_jf : view (·.pc) (step (load [8, 0, 20])) = some 20 := by decide
/-- V-JF-3 -/
theorem test_jf_range : view (·.status) (step (loadRegs [8, 0, 32770] #v[0, 0, 32768, 0, 0, 0, 0, 0])) =
    some (.faulted .addressOutOfRange 0) := by decide
/-- V-ADD-4 -/
theorem test_add : view (·.readReg 0) (step (loadRegs [9, 32768, 32769, 0] #v[0, 40000, 0, 0, 0, 0, 0, 0])) = some 7232 := by decide
/-- V-ADD-1 -/
theorem test_add_wraps : view (·.readReg 0) (step (load [9, 32768, 32767, 1])) = some 0 := by decide
/-- V-MULT-1 -/
theorem test_mult : view (·.readReg 1) (step (load [10, 32769, 200, 200])) = some 7232 := by decide
/-- V-MULT-3 -/
theorem test_mult_large : view (·.readReg 1) (step (loadRegs [10, 32769, 32768, 2] #v[65535, 0, 0, 0, 0, 0, 0, 0])) = some 32766 := by decide
/-- V-MOD-4 -/
theorem test_mod : view (·.readReg 0) (step (loadRegs [11, 32768, 32769, 32770] #v[0, 40000, 50000, 0, 0, 0, 0, 0])) = some 40000 := by decide
/-- V-MOD-5 -/
theorem test_mod_zero : view (·.status) (step (load [11, 10, 5, 0])) = some (.faulted .divideByZero 0) := by decide
/-- V-AND-2 -/
theorem test_and : view (·.readReg 0) (step (loadRegs [12, 32768, 32769, 32770] #v[0, 65535, 40000, 0, 0, 0, 0, 0])) = some 40000 := by decide
/-- V-OR-2 -/
theorem test_or : view (·.readReg 0) (step (loadRegs [13, 32768, 32769, 1] #v[0, 40000, 0, 0, 0, 0, 0, 0])) = some 40001 := by decide
/-- V-NOT-4 -/
theorem test_not : view (·.readReg 0) (step (loadRegs [14, 32768, 32769] #v[0, 40000, 0, 0, 0, 0, 0, 0])) = some 25535 := by decide
/-- V-RMEM-3 -/
theorem test_rmem : view (·.readReg 0) (step { load [15, 32768, 200] with mem := (load [15, 32768, 200]).mem.writeWord 200 65535 }) =
    some 65535 := by decide
/-- V-RMEM-4 -/
theorem test_rmem_range : view (·.status) (step (loadRegs [15, 32768, 32769] #v[0, 32768, 0, 0, 0, 0, 0, 0])) =
    some (.faulted .addressOutOfRange 0) := by decide
/-- V-SMC-2: overwriting its own operand word -/
theorem test_wmem : view (fun t => (t.mem.readWord 2, t.pc)) (step (load [16, 2, 99])) = some (99, 3) := by decide
/-- V-WMEM-4, in canonical form -/
theorem test_wmem_cells : view (·.mem) (step (loadRegs [16, 32768, 32768] #v[300, 0, 0, 0, 0, 0, 0, 0])) =
    some [(0, 16), (1, 32768), (2, 32768), (300, 300)] := by decide
/-- V-CALL-1 -/
theorem test_call : view (fun t => (t.stack, t.pc)) (step { load (List.replicate 10 21 ++ [17, 20]) with pc := 10 }) =
    some ([12], 20) := by decide
/-- V-RET-1 -/
theorem test_ret : view (fun t => (t.stack, t.pc)) (step { load [18] with stack := [12] }) = some ([], 12) := by decide
/-- V-RET-3 -/
theorem test_ret_range : view (fun t => (t.status, t.stack)) (step { load [18] with stack := [40000] }) =
    some (.faulted .addressOutOfRange 0, [40000]) := by decide
/-- V-OUT-1 -/
theorem test_out : view (fun t => (t.output, t.pc)) (step (load [19, 255])) = some ([255], 2) := by decide
/-- V-OUT-6 -/
theorem test_out_channel_error : view (fun t => (t.status, t.output)) (step { load [19, 65] with outAnswers := [.channelError] }) =
    some (.faulted .ioError 0, []) := by decide
/-- V-IN-1, the first of its three -/
theorem test_in : view (fun t => (t.readReg 0, t.inputBuf, t.lineAnswers))
    (step ((load [20, 32768]).deliverLine (.line 104 [105, 10]))) = some (104, [105, 10], []) := by decide
/-- V-IN-5: nothing is said of the buffer -/
theorem test_in_destination : view (fun t => (t.status, t.regs, t.pc)) (step { load [20, 10] with inputBuf := [7] }) =
    some (.faulted .invalidDestination 0, Vector.replicate 8 0, 0) := by decide
/-- V-FETCH-3 and V-FETCH-4 -/
theorem test_fetch_end : view (·.status) (step { State.reset with pc := 32767, mem := [(32767, 1)] }) =
      some (.faulted .addressOutOfRange 32767) ∧
    view (·.status) (step { State.reset with pc := 32767, mem := [(32767, 22)] }) =
      some (.faulted .invalidOpcode 32767) := by decide
/-- V-LOAD-1 and V-LOAD-4 -/
theorem test_load : (boot [1, 2, 3]).status = .faulted .loadError 0 ∧
    (boot [0x09, 0x00, 0x00, 0x80]).mem = [(0, 9), (1, 32768)] := by decide
/-- The host's table words run as the first instruction after reset. -/
theorem test_with_fetch_word : step (State.reset.withFetchWord 16 21) = exec .noop (State.reset.withFetchWord 16 21) := rfl
/-- 60_exceptions.md R170 -/
theorem test_fault_codes : FaultKind.code .loadError = 1 ∧ FaultKind.code .stackOverflow = 9 := by decide

/-! ### Witnesses: a state and operands that meet a statement's hypotheses, each clause at a boundary -/

/-- r1 = 32768, r2 = 32767, r3 = 65535. -/
def w : State := loadRegs [] #v[0, 32768, 32767, 65535, 0, 0, 0, 0]

/-- DecodeOfEncodeGivesItBack; EncodeOfDecodeGivesTheWords; StepRunsDecodedInstruction -/
theorem witness_decode : (Instr.gt (.invalid 65535) (.literal 32767) (.register 7)).wf = true ∧
    decode [7, 32767, 32776, 5] = .ok (.jt (.literal 32767) (.invalid 32776), [5]) ∧
    (load [21]).status = .running ∧ decode ((load [21]).mem.wordsFrom (load [21]).pc.toNat 4) = .ok (.noop, [0, 0, 0]) := by decide

/-- OperandWordClasses, ResolveOfRawWord, WriteDestOfRawWord: the ends of each range, which no two clauses share. -/
theorem witness_operand_ranges : (32767 : Word).toNat ≤ 32767 ∧ (32768 : Word).toNat = 32768 + (0 : Fin 8).val ∧
    (32775 : Word).toNat = 32768 + (7 : Fin 8).val ∧ 32776 ≤ (32776 : Word).toNat ∧
    (32775 : Word).toNat - 32768 = (7 : Fin 8).val ∧ 32768 ≤ (32775 : Word).toNat ∧ 32775 < (32776 : Word).toNat ∧
    (32767 : Word).toNat < 32768 := by decide

/-- IllegalOpcodeRaisesInvalidOpcode: the last address, the first illegal word. -/
theorem witness_illegal_opcode : let s : State := { State.reset with pc := 32767, mem := [(32767, 22)] }
    s.status = .running ∧ s.pc.toNat < 32768 ∧ 22 ≤ (s.mem.readWord s.pc.toNat).toNat := by decide

/-- OpcodeFetch -/
theorem witness_opcode_fetch : let s : State := { State.reset with pc := 32768 }
    let u : State := { State.reset with pc := 32767 }
    s.status = .running ∧ 32768 ≤ s.pc.toNat ∧ u.status = .running ∧ u.pc.toNat < 32768 ∧ fetch u.mem u.pc = .ok .halt := by
  decide

/-- FetchUnit: each clause at the end of memory. -/
theorem witness_fetch_unit : 32768 ≤ (32768 : Word).toNat ∧
    ((32767 : Word).toNat < 32768 ∧ arity? (Memory.readWord [(32767, 22)] 32767) = none) ∧
    (arity? (Memory.readWord [(32765, 9)] 32765) = some 3 ∧ 32768 < (32765 : Word).toNat + 1 + 3) ∧
    (arity? (Memory.readWord [(32764, 9)] 32764) = some 3 ∧ (32764 : Word).toNat + 1 + 3 ≤ 32768) := by decide

/-- StepRunsWordsInMemory: an instruction that ends at the last address. -/
theorem witness_holds_at_pc : let s : State := { State.reset with pc := 32766, mem := [(32766, 19), (32767, 65)] }
    s.status = .running ∧ (Instr.out (.literal 65)).wf = true ∧ s.holdsAtPc (.out (.literal 65)) := by
  unfold State.holdsAtPc; decide

/-- TerminalStateIsKept -/
theorem witness_terminal : RunStatus.isTerminal .halted = true ∧ RunStatus.isTerminal (.faulted .ioError 3) = true := by decide

/-- StepKeepsInvariant -/
theorem witness_step_invariant : State.reset.Inv ∧ ∃ t, step State.reset = .next t :=
  ⟨⟨rfl, by decide, by intro k p h; cases h⟩, _, rfl⟩

/-- RunFromAnyImageKeepsInvariant: `out 65`, then a wait-free run of two steps. -/
theorem witness_run : ∃ t, Host.Core.run core 2 { boot [19, 0, 65, 0] with lineAnswers := [.endOfStream], outAnswers := [.ok] } =
    .next t := ⟨_, rfl⟩

/-- EqualReadsMeanEqualMemory -/
theorem witness_memory_wf : Memory.wf [(5, 7), (32767, 65535)] = true ∧
    ∀ a, Memory.readWord [(5, 7)] a = Memory.readWord [(5, 7)] a := ⟨by decide, fun _ => rfl⟩

/-- NoopOnlyAdvances, its last clause -/
theorem witness_noop_end : let s : State := { State.reset with pc := 32767, mem := [(32767, 21)] }
    s.status = .running ∧ s.pc = 32767 ∧ s.mem.readWord 32767 = 21 := by decide

/-- The clauses of ThreeOperandRule and TwoOperandRule: SetCopiesResolvedWord, EqWritesOneIffEqual,
GtWritesOneIffGreaterUnsigned, AddWritesSumModulo32768, MultWritesProductModulo32768, AndWritesSixteenBitAnd,
OrWritesSixteenBitOr, NotWritesFifteenBitComplement. -/
theorem witness_operand_rules : resolve w (.register 3) = .ok 65535 ∧ resolve w (.literal 32767) = .ok 32767 ∧
    (Operand.register 7).isRegister = true ∧ (Operand.invalid 32776).isInvalid = true ∧
    (Operand.register 3).isInvalid = false ∧ (Operand.literal 32767).isInvalid = false ∧
    (Operand.literal 32767).isRegister = false ∧ (Operand.invalid 32776).isRegister = false := by decide

/-- PushAppendsResolvedWord, BoundedStackOverflows: a full stack of one word, then room for one. -/
theorem witness_push : resolve w (.register 3) = .ok 65535 ∧ (Operand.invalid 65535).isInvalid = true ∧
    (Operand.register 3).isInvalid = false ∧ 1 ≤ ({ w with stack := [4] } : State).stack.length ∧
    resolve w (.register 2) = .ok 32767 ∧ (32767 : Word).toNat < 32768 ∧
    resolve w (.register 1) = .ok 32768 ∧ 32768 ≤ (32768 : Word).toNat ∧ w.stack.length < 1 := by decide

/-- PopMovesTopToRegister -/
theorem witness_pop : ({ w with stack := [5, 9] } : State).stack = [5] ++ [9] ∧ w.stack = [] ∧
    ({ w with stack := [5] } : State).stack ≠ [] ∧ (Operand.literal 10).isRegister = false := by decide

/-- JmpGoesToResolvedTarget, CallPushesReturnAddress, CallThenRetResumesAfterCall: the last target, the first bad one. -/
theorem witness_target : resolve w (.register 2) = .ok 32767 ∧ (32767 : Word).toNat < 32768 ∧
    (Operand.invalid 32776).isInvalid = true ∧ resolve w (.register 1) = .ok 32768 ∧ 32768 ≤ (32768 : Word).toNat ∧
    ({ w with pc := 32765 } : State).pc.toNat + 2 < 32768 := by decide

/-- JtJumpsOnNonzero, JfJumpsOnZero, PcStandsAfterInstruction's last clauses -/
theorem witness_branch : resolve w (.register 3) = .ok 65535 ∧ (65535 : Word) ≠ 0 ∧ resolve w (.register 0) = .ok 0 ∧
    resolve w (.register 2) = .ok 32767 ∧ resolve w (.register 1) = .ok 32768 ∧ (Operand.invalid 40000).isInvalid = true := by decide

/-- RetPopsOrHalts -/
theorem witness_ret : w.stack = [] ∧ ({ w with stack := [32767] } : State).stack = [] ++ [32767] ∧
    ({ w with stack := [1, 32768] } : State).stack = [1] ++ [32768] := by decide

/-- ModWritesExactRemainder -/
theorem witness_mod : resolve w (.register 3) = .ok 65535 ∧ resolve w (.literal 1) = .ok 1 ∧ (1 : Word) ≠ 0 ∧
    resolve w (.literal 0) = .ok 0 ∧ (Operand.literal 5).isInvalid = false ∧ (Operand.invalid 32776).isInvalid = true ∧
    (Operand.literal 10).isRegister = false := by decide

/-- AddMultNotResultsAreFifteenBits -/
theorem witness_fifteen_bits : w.status = .running ∧
    view (·.status) (exec (.not (.register 0) (.register 3)) w) = some .running := by decide

/-- RmemReadsMemoryWord, WmemStoresResolvedWord, WmemThenRmemYieldsValue: the last address, the first bad one. -/
theorem witness_memory_access : w.mem.wf = true ∧ resolve w (.register 2) = .ok 32767 ∧ (32767 : Word).toNat < 32768 ∧
    resolve w (.register 3) = .ok 65535 ∧ resolve w (.register 1) = .ok 32768 ∧ 32768 ≤ (32768 : Word).toNat ∧
    (Operand.invalid 32776).isInvalid = true ∧ (Operand.literal 3).isInvalid = false ∧ (Operand.literal 3).isRegister = false ∧
    fetch (w.mem.writeWord 32767 21) 32767 = .ok .noop := by decide

/-- StoreIsSeenByNextFetch: `wmem 2 21`, which overwrites its own operand word b. -/
theorem witness_self_modifying : (load [16, 2, 21]).Inv ∧ (load [16, 2, 21]).status = .running ∧
    (Instr.wmem (.literal 2) (.literal 21)).wf = true ∧ (load [16, 2, 21]).holdsAtPc (.wmem (.literal 2) (.literal 21)) ∧
    fetch ((load [16, 2, 21]).mem.writeWord 2 21) 2 = .ok .noop :=
  ⟨⟨by decide, by decide, by intro k p h; cases h⟩, rfl, rfl, by unfold State.holdsAtPc; decide, by decide⟩

/-- OutEmitsOneByte -/
theorem witness_out : resolve w (.literal 255) = .ok 255 ∧ (255 : Word).toNat ≤ 255 ∧
    ({ w with outAnswers := [.ok] } : State).outAnswers = [.ok] ∧
    ({ w with outAnswers := [.channelError, .ok] } : State).outAnswers = [.channelError, .ok] ∧
    resolve w (.literal 256) = .ok 256 ∧ 255 < (256 : Word).toNat := by decide

/-- InWritesNextCharacter, UnansweredRequests, LineIsDeliveredInOrder -/
theorem witness_in : ({ w with inputBuf := [7] } : State).inputBuf = [7] ∧ w.inputBuf = [] ∧ w.lineAnswers = [] ∧
    w.outAnswers = [] ∧ (w.deliverLine (.line 104 [10])).lineAnswers = [.line 104 [10]] ∧ 1 < [104, 10].length ∧
    (w.deliverLine .endOfStream).lineAnswers = [.endOfStream] ∧ (w.deliverLine .channelError).lineAnswers = [.channelError] ∧
    (load [20, 32768]).awaitsLine = true ∧ (Operand.literal 10).isRegister = false := by decide

/-- OnlyDestinationRegisterChanges, PcStandsAfterInstruction, OnlyWmemChangesMemory, StackChangesOnlyAtTop,
EntriesBelowTopAreNotRead, OnlyInAndOutReachTheChannel: an instruction that ends without a fault. -/
theorem witness_frames : (∃ t, exec (.add (.register 0) (.register 2) (.literal 1)) { w with stack := [4] } = .next t ∧
      t.status = .running) ∧
    (Instr.add (.register 0) (.register 2) (.literal 1)).destination? ≠ some (.register 1) ∧
    (Instr.add (.register 0) (.register 2) (.literal 1)).transfers = false ∧ ({ w with stack := [4] } : State).stack ≠ [] ∧
    (∃ t, step (load [1, 32768, 4]) = .next t ∧ t.readReg 0 ≠ (load [1, 32768, 4]).readReg 0) ∧
    (∃ t, step (load [16, 9, 4]) = .next t ∧ t.mem ≠ (load [16, 9, 4]).mem) :=
  ⟨⟨_, rfl, rfl⟩, by decide, rfl, by decide, ⟨_, rfl, by decide⟩, ⟨_, rfl, by decide⟩⟩

/-- FaultsArePrecise, FaultKindsPerInstruction -/
theorem witness_faults : (load [3, 32768]).status = .running ∧
    (∃ t, step (load [3, 32768]) = .next t ∧ t.status = .faulted .stackUnderflow 0) ∧
    (∃ t, exec (.pop (.register 0)) (load [3, 32768]) = .next t ∧ t.status = .faulted .stackUnderflow 0) ∧
    (∀ a, fetch (load [3, 32768]).mem (load [3, 32768]).pc ≠ .ok (.in_ a)) ∧
    fetch [] 32768 = .error .addressOutOfRange := by
  refine ⟨rfl, ⟨_, rfl, by decide⟩, ⟨_, rfl, by decide⟩, fun a h => ?_, by decide⟩
  have : fetch (load [3, 32768]).mem (load [3, 32768]).pc = .ok (.pop (.register 0)) := by decide
  rw [this] at h; cases h

/-- HaltedOnlyByHaltOrEmptyRet -/
theorem witness_halted : (load [18]).status = .running ∧ ∃ t, step (load [18]) = .next t ∧ t.status = .halted :=
  ⟨rfl, _, rfl, by decide⟩

/-- LoaderFillsMemoryOrFails, ResetState, LoadErrorRunsNothing -/
theorem witness_images : ([1] : List Byte).length % 2 = 1 ∧ 32768 < (List.replicate 65538 (0 : Byte)).length / 2 ∧
    ([9, 0, 0, 128] : List Byte).length % 2 = 0 ∧ ([9, 0, 0, 128] : List Byte).length / 2 ≤ 32768 ∧
    (List.replicate 65536 (0 : Byte)).length / 2 ≤ 32768 := by
  simp only [List.length_replicate]; decide

end Sys2Proof.Tests
end

section
/-! SUPPORT. The frame of the register file (spec/10_state.md R23): an instruction leaves it as it was or writes its
destination register once, and a step does what the instruction it fetched does. -/

namespace Sys2Proof.Machine

/-- Only `write`, `pop` and `delivered` reach the register file, and each names the destination register (R23). -/
theorem Effect.regs_unchanged_or_destination_written {i : Instr} {s t : State} (h : Effect i s t) :
    t.regs = s.regs ∨ ∃ r v, i.destination? = some (.register r) ∧ t.regs = s.regs.set r v := by
  cases h with
  | write r v dest hp hi => exact .inr ⟨r, v, dest, rfl⟩
  | pop a r st v h ha hs => subst h ha; exact .inr ⟨r, v, rfl, rfl⟩
  | delivered a r ch buf answers h ha hn => subst h ha; exact .inr ⟨r, ch, rfl, rfl⟩
  | fault | stand | halted | jump | push | call | ret | store | emitted | outFailed | waits | inFailed | charLost =>
    exact .inl rfl

/-- A register that an instruction changes is its destination operand. -/
theorem destination_of_exec_changes_readReg {i : Instr} {s t : State} {r : Fin 8} (h : exec i s = .next t)
    (hr : t.readReg r ≠ s.readReg r) : i.destination? = some (.register r) := by
  obtain hs | ⟨d, v, hd, hs⟩ := (exec_effect h).regs_unchanged_or_destination_written
  · exact absurd (by simp only [State.readReg, hs]) hr
  · have hrd : r = d := by
      by_contra hne
      exact hr (by simpa only [State.readReg, State.writeReg_regs, hs] using s.writeReg_readReg_ne v hne)
    rw [hrd, hd]

/-- A step that changes a register ran an instruction whose destination that register is. -/
theorem fetched_destination_of_step_changes_readReg {s t : State} {r : Fin 8} (h : step s = .next t)
    (hr : t.readReg r ≠ s.readReg r) :
    ∃ i, fetch s.mem s.pc = .ok i ∧ i.destination? = some (.register r) := by
  obtain ⟨-, rfl⟩ | ⟨-, ⟨k, -, rfl⟩ | ⟨i, hi, he⟩⟩ := step_cases h
  · exact absurd rfl hr
  · exact absurd (State.takeFault_readReg s k r) hr
  · exact ⟨i, hi, destination_of_exec_changes_readReg he hr⟩

/-- Settles O46: a changed register is the destination, and the one instruction a step fetches has one destination. -/
theorem onlyDestinationRegisterChanges : Obligations.OnlyDestinationRegisterChanges := by
  refine ⟨fun i s t r h hd => ?_, fun s t r q h hr hq => ?_⟩
  · by_contra hne
    exact hd (destination_of_exec_changes_readReg h hne)
  · obtain ⟨i, hi, hir⟩ := fetched_destination_of_step_changes_readReg h hr
    obtain ⟨j, hj, hjq⟩ := fetched_destination_of_step_changes_readReg h hq
    obtain rfl : i = j := Except.ok.inj (hi.symm.trans hj)
    exact Operand.register.inj (Option.some.inj (hir.symm.trans hjq))

end Sys2Proof.Machine
end

section
/-! SUPPORT. The decoder's examples, the operand classes and illegal opcodes (spec/30_encoding.md R73, R78, R84). -/

namespace Sys2Proof.Machine

/-- Below the end of memory the words from an address begin with the word at it. -/
theorem Memory.wordsFrom_succ (m : Memory) {a : Nat} (n : Nat) (ha : a < 32768) :
    m.wordsFrom a (n + 1) = m.readWord a :: m.wordsFrom (a + 1) n :=
  if_pos ha

/-- The opcode word alone makes the fetch fail (R78): whatever operand words follow, or none, plays no part. -/
theorem fetch_illegal_opcode {m : Memory} {p : Word} (hp : p.toNat < 32768) (hop : 22 ≤ (m.readWord p.toNat).toNat) :
    fetch m p = .error .invalidOpcode := by
  have hd : decode (m.wordsFrom p.toNat Config.maxWords) = .error .invalidOpcode := by
    rw [m.wordsFrom_succ 3 hp]
    exact decodeOp_invalid hop _
  simp only [fetch, hd]

theorem step_of_fetch_error {s : State} {k : FaultKind} (hs : s.status = .running)
    (hf : fetch s.mem s.pc = .error k) : step s = .next (s.takeFault k) := by
  simp only [step, hs, hf]

/-- Settles O1: each example is evaluated, the words the encoder gives and the term the decoder reads. -/
theorem specEncodingExamples : Obligations.SpecEncodingExamples :=
  ⟨rfl, by decide, rfl, by decide, rfl, rfl, by decide, by decide, rfl, by decide⟩

/-- Settles O4: a word's class follows from its value, and what resolving and writing answer follows from the class. -/
theorem operandWordClasses : Obligations.OperandWordClasses := by
  refine fun v => ⟨fun hv => ?_, fun r hv => Operand.ofWord_register r hv, fun hv => ?_⟩
  · have hc : Operand.ofWord v = .literal v := Operand.ofWord_literal (by omega)
    exact ⟨hc, fun s => by rw [hc, resolve_literal]⟩
  · have hc : Operand.ofWord v = .invalid v := Operand.ofWord_invalid hv
    refine ⟨hc, fun s w => ?_⟩
    rw [hc]
    exact ⟨resolve_invalid s v, writeDest_of_not_isRegister w rfl⟩

/-- Settles O5: the fetch fails on the opcode word, and a running step takes the fetch's fault. -/
theorem illegalOpcodeRaisesInvalidOpcode : Obligations.IllegalOpcodeRaisesInvalidOpcode :=
  fun s hs hp hop =>
    ⟨_, step_of_fetch_error hs (fetch_illegal_opcode hp hop), s.takeFault_faultedWith .invalidOpcode⟩

end Sys2Proof.Machine
end

section
/-! SUPPORT. Operands by their raw words, the opcode fetch, and where an instruction leaves pc
(spec/40_fetch_dispatch.md R101, R104, R105, R107). -/

namespace Sys2Proof

/-- The instruction the decoder picks carries the opcode it was picked by (R77). -/
theorem decodeOp_opcode {op : Nat} {ws rest : List Word} {i : Instr} (h : decodeOp op ws = .ok (i, rest)) :
    i.opcode = BitVec.ofNat 16 op := by
  match op, h with
  | 0, h | 18, h | 21, h => cases h; rfl
  | 2, h | 3, h | 6, h | 17, h | 19, h | 20, h => obtain ⟨a, -, rfl⟩ := formatW1_ok h; rfl
  | 1, h | 7, h | 8, h | 14, h | 15, h | 16, h => obtain ⟨a, b, -, rfl⟩ := formatW2_ok h; rfl
  | 4, h | 5, h | 9, h | 10, h | 11, h | 12, h | 13, h => obtain ⟨a, b, c, -, rfl⟩ := formatW3_ok h; rfl
  | n + 22, h => cases h

/-- An instruction read from a list of words has the first word as its opcode. -/
theorem decode_opcode {w : Word} {ws rest : List Word} {i : Instr} (h : decode (w :: ws) = .ok (i, rest)) :
    i.opcode = w := by
  have hop : i.opcode = BitVec.ofNat 16 w.toNat := decodeOp_opcode h
  rw [hop, BitVec.ofNat_toNat, BitVec.setWidth_eq]

namespace Machine

/-- Past the end of memory there is no opcode word to fetch (R101). -/
theorem fetch_past_end (m : Memory) {p : Word} (hp : 32768 ≤ p.toNat) : fetch m p = .error .addressOutOfRange := by
  have hw : m.wordsFrom p.toNat Config.maxWords = [] := if_neg (Nat.not_lt.2 hp)
  simp only [fetch, hw, decode]

theorem fetch_opcode {m : Memory} {p : Word} {i : Instr} (hp : p.toNat < 32768) (h : fetch m p = .ok i) :
    i.opcode = m.readWord p.toNat := by
  obtain ⟨rest, hd⟩ := fetch_ok h
  rw [m.wordsFrom_succ 3 hp] at hd
  exact decode_opcode hd

/-- Settles O8: past the end the fetch has no word, and below it the word at pc is the first the decoder reads. -/
theorem opcodeFetch : Obligations.OpcodeFetch :=
  fun s hs =>
    ⟨fun hp => ⟨_, step_of_fetch_error hs (fetch_past_end s.mem hp), s.takeFault_faultedWith .addressOutOfRange⟩,
      fun hp _ hi => fetch_opcode hp hi⟩

/-- Settles O6: the word's range gives its class, and the class what resolving answers. -/
theorem resolveOfRawWord : Obligations.ResolveOfRawWord := by
  refine fun s v => ⟨fun hv => ?_, fun r hr hv => ?_, fun hv => ?_⟩
  · rw [Operand.ofWord_literal (by omega), resolve_literal]
  · rw [Operand.ofWord_register r (by omega), resolve_register]
    rfl
  · rw [Operand.ofWord_invalid hv, resolve_invalid]

/-- Settles O7: only a word that names a register is a destination, and the write is the register write alone. -/
theorem writeDestOfRawWord : Obligations.WriteDestOfRawWord := by
  refine fun s a v => ⟨fun r hr => ?_, fun ha => ?_⟩
  · rw [Operand.ofWord_register r hr, writeDest_register]
    rfl
  · obtain ha | ha := ha
    · rw [Operand.ofWord_literal ha]
      exact writeDest_of_not_isRegister v rfl
    · rw [Operand.ofWord_invalid ha]
      exact writeDest_of_not_isRegister v rfl

/-- Where an instruction leaves pc (R107): past its words, unless it overwrites pc, ends in a fault, or is an
`in` that waits. -/
theorem Effect.pc_past_words_or {i : Instr} {s t : State} (h : Effect i s t) :
    t.pc = s.pc + BitVec.ofNat 16 i.length ∨ i.transfers = true ∨ (∃ kind, t.faultedWith kind) ∨
      ((∃ a, i = .in_ a) ∧ s.inputBuf = [] ∧ s.lineAnswers = []) := by
  cases h with
  | stand | write | halted => exact .inl rfl
  | push _ _ h | pop _ _ _ _ h | store _ _ _ _ h | emitted _ _ h | delivered _ _ _ _ _ h => subst h; exact .inl rfl
  | jump _ _ h =>
    obtain ⟨a, rfl⟩ | ⟨a, b, _, rfl, -⟩ | ⟨a, b, rfl, -⟩ := h
    all_goals exact .inr (.inl rfl)
  | call _ _ h | ret _ _ h => subst h; exact .inr (.inl rfl)
  | fault | outFailed | inFailed | charLost => exact .inr (.inr (.inl ⟨_, State.takeFault_faultedWith _ _⟩))
  | waits a h hb hl => exact .inr (.inr (.inr ⟨⟨a, h⟩, hb, hl⟩))

/-- A branch whose test fails leaves its target operand unexamined (R136, R137). -/
theorem branchHandler_untaken {taken : Word → Bool} {a : Operand} (b : Operand) {s : State} {v : Word}
    (hv : resolve s a = .ok v) (ht : taken v = false) : branchHandler taken a b s = .ok (s.advance 3) := by
  simp [branchHandler, hv, ht]

/-- An instruction that completes with a handler that only advances ends at the advanced pc. -/
theorem pc_of_complete_advance {s t : State} {n : Nat} {handler : Except FaultKind State}
    (h : complete s handler = .next t) (hh : handler = .ok (s.advance n)) : t.pc = s.pc + BitVec.ofNat 16 n := by
  subst hh
  cases h
  rfl

/-- Settles O47: the hypotheses leave only the first of the cases of `Effect.pc_past_words_or`, and an untaken branch
only advances. -/
theorem pcStandsAfterInstruction : Obligations.PcStandsAfterInstruction := by
  refine ⟨fun i s t _ h hfault htransfers hin => ?_, fun a b s t hv h => ?_, fun a b s t v hv hne h => ?_⟩
  · obtain hpc | htr | ⟨kind, p, hp⟩ | ⟨ha, hb, hl⟩ := (exec_effect h).pc_past_words_or
    · exact hpc
    · exact absurd htr (by simp [htransfers])
    · exact absurd hp (hfault kind p)
    · exact ((hin ha).elim (· hb) (· hl)).elim
  · exact pc_of_complete_advance h (branchHandler_untaken b hv isNonzero_zero)
  · exact pc_of_complete_advance h (branchHandler_untaken b hv (by simp [isNonzero_of_ne hne]))

end Machine

end Sys2Proof
end

section
/-! SUPPORT. The machine control instructions halt and noop, and a noop in the last word of memory
(spec/41_machine_control.md R120, R121). -/

namespace Sys2Proof.Machine

theorem step_of_fetch_ok {s : State} {i : Instr} (hs : s.status = .running) (hf : fetch s.mem s.pc = .ok i) :
    step s = exec i s := by
  simp only [step, hs, hf]

/-- halt ends the run at the advanced pc (R120). -/
theorem exec_halt (s : State) : exec .halt s = .next (s.advance 1).enterHalted := rfl

/-- noop is the dispatcher's advance and nothing more (R121). -/
theorem exec_noop (s : State) : exec .noop s = .next (s.advance 1) := rfl

/-- noop has no operand, so it is fetched at any address of memory, the last included. -/
theorem fetch_noop {m : Memory} {p : Word} (hp : p.toNat < 32768) (hop : m.readWord p.toNat = 21) :
    fetch m p = .ok .noop := by
  have hd : decode (m.wordsFrom p.toNat Config.maxWords) = .ok (.noop, m.wordsFrom (p.toNat + 1) 3) := by
    rw [m.wordsFrom_succ 3 hp, hop]
    rfl
  exact fetch_of_decode hd

theorem step_past_end {s : State} (hs : s.status = .running) (hp : 32768 ≤ s.pc.toNat) :
    step s = .next (s.takeFault .addressOutOfRange) :=
  step_of_fetch_error hs (fetch_past_end s.mem hp)

/-- Settles O18: the encoder and the decoder are evaluated, and the state is the one `exec_halt` gives. -/
theorem haltEndsTheRun : Obligations.HaltEndsTheRun :=
  ⟨rfl, fun _ => rfl, exec_halt⟩

/-- Settles O19: a noop in the last word is fetched and advances pc past the end of memory, where the next fetch has
no word. -/
theorem noopOnlyAdvances : Obligations.NoopOnlyAdvances := by
  refine ⟨rfl, exec_noop, fun s hs hpc hop => ?_⟩
  have hfetch : fetch s.mem s.pc = .ok .noop := by
    rw [hpc]
    exact fetch_noop (by decide) hop
  have hend : (s.advance 1).pc = 32768 := by
    rw [State.advance_pc, hpc]
    rfl
  have hpast : 32768 ≤ (s.advance 1).pc.toNat := by
    rw [hend]
    decide
  exact ⟨s.advance 1, (step_of_fetch_ok hs hfetch).trans (exec_noop s), hend,
    _, step_past_end hs hpast, (s.advance 1).takeFault_faultedWith .addressOutOfRange⟩

end Sys2Proof.Machine
end

section
/-! SUPPORT. How an instruction completes from what its handler answers, the rule shared by the format W2 register writers,
and set, push and pop (spec/42_data_stack.md R125 to R127). -/

namespace Sys2Proof.Machine

/-! ### From a handler's answer to the instruction's outcome -/

/-- An instruction whose handler answers a state ends in that state. -/
theorem exec_of_handler_ok {i : Instr} {s t : State} {handler : Except FaultKind State}
    (hi : exec i s = complete s handler) (h : handler = .ok t) : exec i s = .next t := by
  rw [hi, h, complete, settle_ok]

/-- An instruction whose handler faults takes that fault at the state before it (R172). -/
theorem exec_of_handler_error {i : Instr} {s : State} {k : FaultKind} {handler : Except FaultKind State}
    (hi : exec i s = complete s handler) (h : handler = .error k) : exec i s = .next (s.takeFault k) := by
  rw [hi, h, complete, settle_error]

theorem raises_of_handler_error {i : Instr} {s : State} {k : FaultKind} {handler : Except FaultKind State}
    (hi : exec i s = complete s handler) (h : handler = .error k) : Raises i s k :=
  ⟨s.takeFault k, exec_of_handler_error hi h, s.takeFault_faultedWith k⟩

/-! ### The shape of format W2, clause by clause -/

theorem unaryOp_register {f : Word → Except FaultKind Word} {b : Operand} {s : State} {vb v : Word} (r : Fin 8)
    (hb : resolve s b = .ok vb) (hf : f vb = .ok v) :
    unaryOp f (.register r) b s = .ok ((s.advance 3).writeReg r v) := by
  simp only [unaryOp, hb, hf, ok_bind, writeDest_register]

theorem unaryOp_of_isInvalid (f : Word → Except FaultKind Word) (a : Operand) {b : Operand} (s : State)
    (hb : b.isInvalid = true) : unaryOp f a b s = .error .invalidOperand := by
  simp only [unaryOp, resolve_of_isInvalid hb, error_bind]

theorem unaryOp_of_not_isRegister {f : Word → Except FaultKind Word} {a b : Operand} {s : State} {vb v : Word}
    (hb : resolve s b = .ok vb) (hf : f vb = .ok v) (ha : a.isRegister = false) :
    unaryOp f a b s = .error .invalidDestination := by
  simp only [unaryOp, hb, hf, ok_bind, writeDest_of_not_isRegister v ha]

/-- An instruction that completes with `unaryOp` of a function that never faults obeys the format W2 rule. -/
theorem twoOperandRule_of_unaryOp {op : Word} {mk : Operand → Operand → Instr} {f : Word → Word}
    (henc : ∀ a b, encode (mk a b) = [op, a.toWord, b.toWord])
    (hexec : ∀ a b s, exec (mk a b) s = complete s (unaryOp (fun x => .ok (f x)) a b s)) : TwoOperandRule op mk f := by
  refine fun a b s => ⟨henc a b, fun r vb ha hb => ?_, fun hb => ?_, fun hb ha => ?_⟩
  · subst ha
    exact exec_of_handler_ok (hexec _ b s) (unaryOp_register r hb rfl)
  · exact raises_of_handler_error (hexec a b s) (unaryOp_of_isInvalid _ a s hb)
  · obtain ⟨vb, hvb⟩ := resolve_ok_of_not_isInvalid s hb
    exact raises_of_handler_error (hexec a b s) (unaryOp_of_not_isRegister hvb rfl ha)

/-! ### set, push and pop -/

theorem exec_set (a b : Operand) (s : State) : exec (.set a b) s = complete s (unaryOp .ok a b s) := rfl

/-- The stack of this hardware is unbounded (R6). -/
theorem exec_push (a : Operand) (s : State) : exec (.push a) s = complete s (pushHandler none a s) := rfl

theorem exec_pop (a : Operand) (s : State) : exec (.pop a) s = complete s (popHandler a s) := rfl

/-- An unbounded push appends the resolved word (R32). -/
theorem pushHandler_none {a : Operand} {s : State} {v : Word} (hv : resolve s a = .ok v) :
    pushHandler none a s = .ok ((s.advance 2).setStack (s.stack ++ [v])) := by
  simp only [pushHandler, hv, ok_bind, pushWord_none, State.advance_stack]

theorem pushHandler_of_isInvalid (capacity : Option Nat) {a : Operand} (s : State) (ha : a.isInvalid = true) :
    pushHandler capacity a s = .error .invalidOperand := by
  simp only [pushHandler, resolve_of_isInvalid ha, error_bind]

/-- A bounded stack that holds its capacity takes no further word (R188). -/
theorem pushWord_full {k : Nat} {s : State} (v : Word) (hk : k ≤ s.stack.length) :
    pushWord (some k) s v = .error .stackOverflow :=
  if_pos (decide_eq_true hk)

theorem pushHandler_full {a : Operand} {s : State} {k : Nat} (ha : a.isInvalid = false) (hk : k ≤ s.stack.length) :
    pushHandler (some k) a s = .error .stackOverflow := by
  obtain ⟨v, hv⟩ := resolve_ok_of_not_isInvalid s ha
  have hfull : pushWord (some k) (s.advance 2) v = .error .stackOverflow :=
    pushWord_full v (by rwa [State.advance_stack])
  simp only [pushHandler, hv, ok_bind, hfull]

/-- On a stack that is not empty, pop is the destination write of the top word over the rest of the stack. -/
theorem popHandler_append (a : Operand) {s : State} {st : List Word} {v : Word} (hs : s.stack = st ++ [v]) :
    popHandler a s = writeDest ((s.advance 2).setStack st) a v := by
  have htop : popWord (s.advance 2) = .ok (v, (s.advance 2).setStack st) :=
    popWord_append (by rw [State.advance_stack, hs])
  simp only [popHandler, htop, ok_bind]

theorem popHandler_empty (a : Operand) {s : State} (hs : s.stack = []) : popHandler a s = .error .stackUnderflow := by
  have hempty : popWord (s.advance 2) = .error .stackUnderflow :=
    popWord_eq_error_iff.2 ⟨by rw [State.advance_stack, hs], rfl⟩
  simp only [popHandler, hempty, error_bind]

theorem popHandler_of_not_isRegister {a : Operand} {s : State} (hs : s.stack ≠ []) (ha : a.isRegister = false) :
    popHandler a s = .error .invalidDestination := by
  obtain ⟨st, v, hst⟩ := (List.eq_nil_or_concat' s.stack).resolve_left hs
  rw [popHandler_append a hst, writeDest_of_not_isRegister v ha]

/-- Settles O20: set is the format W2 shape with the resolved word written as it is. -/
theorem setCopiesResolvedWord : Obligations.SetCopiesResolvedWord :=
  twoOperandRule_of_unaryOp (fun _ _ => rfl) exec_set

/-- Settles O21: what the push handler answers when the operand resolves, when it is invalid, and on a full bounded
stack. -/
theorem pushAppendsResolvedWord : Obligations.PushAppendsResolvedWord := by
  refine fun a s => ⟨rfl, fun v hv => ?_, fun ha => ?_, fun k ha hk => pushHandler_full ha hk⟩
  · exact exec_of_handler_ok (exec_push a s) (pushHandler_none hv)
  · exact raises_of_handler_error (exec_push a s) (pushHandler_of_isInvalid none s ha)

/-- Settles O22: the stack decides first, then the destination; a fault is taken at the state before the step, so the
popped word stays. -/
theorem popMovesTopToRegister : Obligations.PopMovesTopToRegister := by
  refine fun a s => ⟨rfl, fun r st v ha hs => ?_, fun hs => ?_, fun hs ha => ?_⟩
  · subst ha
    exact exec_of_handler_ok (exec_pop _ s) ((popHandler_append _ hs).trans (writeDest_register _ r v))
  · exact raises_of_handler_error (exec_pop a s) (popHandler_empty a hs)
  · exact ⟨s.takeFault .invalidDestination,
      exec_of_handler_error (exec_pop a s) (popHandler_of_not_isRegister hs ha),
      s.takeFault_faultedWith .invalidDestination, s.takeFault_stack .invalidDestination⟩

end Sys2Proof.Machine
end

section
/-! SUPPORT. The rule shared by the format W3 register writers, and the comparison eq (spec/43_compare.md R130). -/

namespace Sys2Proof.Machine

/-! ### The shape of format W3, clause by clause -/

theorem binaryOp_register {f : Word → Word → Except FaultKind Word} {b c : Operand} {s : State} {vb vc v : Word}
    (r : Fin 8) (hb : resolve s b = .ok vb) (hc : resolve s c = .ok vc) (hf : f vb vc = .ok v) :
    binaryOp f (.register r) b c s = .ok ((s.advance 4).writeReg r v) := by
  simp only [binaryOp, hb, hc, hf, ok_bind, writeDest_register]

/-- Both sources are resolved before anything else, and either one that is invalid is the same fault (R104). -/
theorem binaryOp_of_isInvalid (f : Word → Word → Except FaultKind Word) (a : Operand) {b c : Operand} (s : State)
    (h : b.isInvalid = true ∨ c.isInvalid = true) : binaryOp f a b c s = .error .invalidOperand := by
  cases hb : b.isInvalid with
  | true => simp only [binaryOp, resolve_of_isInvalid hb, error_bind]
  | false =>
    obtain ⟨vb, hvb⟩ := resolve_ok_of_not_isInvalid s hb
    have hc : c.isInvalid = true := h.resolve_left (by simp [hb])
    simp only [binaryOp, hvb, resolve_of_isInvalid hc, ok_bind, error_bind]

theorem binaryOp_of_not_isRegister {f : Word → Word → Except FaultKind Word} {a b c : Operand} {s : State}
    {vb vc v : Word} (hb : resolve s b = .ok vb) (hc : resolve s c = .ok vc) (hf : f vb vc = .ok v)
    (ha : a.isRegister = false) : binaryOp f a b c s = .error .invalidDestination := by
  simp only [binaryOp, hb, hc, hf, ok_bind, writeDest_of_not_isRegister v ha]

/-- An instruction that completes with `binaryOp` of a function that never faults obeys the format W3 rule. -/
theorem threeOperandRule_of_binaryOp {op : Word} {mk : Operand → Operand → Operand → Instr} {f : Word → Word → Word}
    (henc : ∀ a b c, encode (mk a b c) = [op, a.toWord, b.toWord, c.toWord])
    (hexec : ∀ a b c s, exec (mk a b c) s = complete s (binaryOp (fun x y => .ok (f x y)) a b c s)) :
    ThreeOperandRule op mk f := by
  refine fun a b c s => ⟨henc a b c, fun r vb vc ha hb hc => ?_, fun h => ?_, fun hb hc ha => ?_⟩
  · subst ha
    exact exec_of_handler_ok (hexec _ b c s) (binaryOp_register r hb hc rfl)
  · exact raises_of_handler_error (hexec a b c s) (binaryOp_of_isInvalid _ a s h)
  · obtain ⟨vb, hvb⟩ := resolve_ok_of_not_isInvalid s hb
    obtain ⟨vc, hvc⟩ := resolve_ok_of_not_isInvalid s hc
    exact raises_of_handler_error (hexec a b c s) (binaryOp_of_not_isRegister hvb hvc rfl ha)

/-! ### eq -/

/-- The Boolean result of a test is 1 when it holds and 0 when it fails (R40). -/
theorem boolWord_decide (p : Prop) [Decidable p] : boolWord (decide p) = if p then 1 else 0 := by
  by_cases hp : p <;> simp [hp]

theorem exec_eq (a b c : Operand) (s : State) :
    exec (.eq a b c) s = complete s (binaryOp (fun x y => .ok (boolWord (decide (x = y)))) a b c s) := rfl

/-- Settles O23: eq is the format W3 shape with the Boolean result of the equality test written. -/
theorem eqWritesOneIffEqual : Obligations.EqWritesOneIffEqual := by
  have hrule : ThreeOperandRule 4 .eq fun x y => boolWord (decide (x = y)) :=
    threeOperandRule_of_binaryOp (fun _ _ _ => rfl) exec_eq
  simpa only [Obligations.EqWritesOneIffEqual, boolWord_decide] using hrule

end Sys2Proof.Machine
end

section
/-! SUPPORT. What going to a target operand answers, clause by clause, and jmp (spec/44_control_transfer.md R135, R140). -/

namespace Sys2Proof.Machine

/-! ### The target of a control transfer -/

theorem jumpTo_of_lt (s : State) {t : Word} (ht : t.toNat < 32768) : jumpTo s t = .ok (s.setPc t) := if_pos ht

theorem jumpTo_of_le (s : State) {t : Word} (ht : 32768 ≤ t.toNat) : jumpTo s t = .error .addressOutOfRange :=
  if_neg ht.not_gt

theorem jumpOperand_of_lt {s : State} {a : Operand} {t : Word} (ha : resolve s a = .ok t) (ht : t.toNat < 32768) :
    jumpOperand s a = .ok (s.setPc t) := by
  simp only [jumpOperand, ha, ok_bind, jumpTo_of_lt s ht]

theorem jumpOperand_of_le {s : State} {a : Operand} {t : Word} (ha : resolve s a = .ok t) (ht : 32768 ≤ t.toNat) :
    jumpOperand s a = .error .addressOutOfRange := by
  simp only [jumpOperand, ha, ok_bind, jumpTo_of_le s ht]

theorem jumpOperand_of_isInvalid (s : State) {a : Operand} (ha : a.isInvalid = true) :
    jumpOperand s a = .error .invalidOperand := by
  simp only [jumpOperand, resolve_of_isInvalid ha, error_bind]

/-! ### jmp -/

theorem exec_jmp (a : Operand) (s : State) : exec (.jmp a) s = complete s (jumpOperand (s.advance 2) a) := rfl

/-- Settles O25: what the target operand answers when it resolves below 32768, when it is invalid, and when it resolves
to 32768 or more. The operand is resolved after the pc has advanced, which resolving does not see. -/
theorem jmpGoesToResolvedTarget : Obligations.JmpGoesToResolvedTarget := by
  refine fun a s => ⟨rfl, fun t ha ht => ?_, fun ha => ?_, fun t ha ht => ?_⟩
  · exact exec_of_handler_ok (exec_jmp a s) (jumpOperand_of_lt ((resolve_advance s 2 a).trans ha) ht)
  · exact raises_of_handler_error (exec_jmp a s) (jumpOperand_of_isInvalid _ ha)
  · exact raises_of_handler_error (exec_jmp a s) (jumpOperand_of_le ((resolve_advance s 2 a).trans ha) ht)

end Sys2Proof.Machine
end

section
/-! SUPPORT. add and mult (spec/45_alu.md R146, R147): the format W3 rule with the exact sum and the exact product, each
reduced modulo 32768. -/

namespace Sys2Proof.Machine

theorem exec_add (a b c : Operand) (s : State) :
    exec (.add a b c) s = complete s (binaryOp (fun x y => .ok (addWords x y)) a b c s) := rfl

theorem exec_mult (a b c : Operand) (s : State) :
    exec (.mult a b c) s = complete s (binaryOp (fun x y => .ok (multWords x y)) a b c s) := rfl

/-- The reduction is of the exact sum of the unsigned words, with ARITH_MOD the spec's 32768 (R145). -/
theorem addWords_eq (x y : Word) : addWords x y = BitVec.ofNat 16 ((x.toNat + y.toNat) % 32768) := rfl

/-- The reduction is of the exact product of the unsigned words, with ARITH_MOD the spec's 32768 (R145). -/
theorem multWords_eq (x y : Word) : multWords x y = BitVec.ofNat 16 ((x.toNat * y.toNat) % 32768) := rfl

/-- Settles O31: add is the format W3 shape with `addWords` written, the exact sum reduced modulo 32768. -/
theorem addWritesSumModulo32768 : Obligations.AddWritesSumModulo32768 := by
  have hrule : ThreeOperandRule 9 .add fun x y => addWords x y :=
    threeOperandRule_of_binaryOp (fun _ _ _ => rfl) exec_add
  simpa only [Obligations.AddWritesSumModulo32768, addWords_eq] using hrule

/-- Settles O32: mult is the format W3 shape with `multWords` written, the exact product reduced modulo 32768. -/
theorem multWritesProductModulo32768 : Obligations.MultWritesProductModulo32768 := by
  have hrule : ThreeOperandRule 10 .mult fun x y => multWords x y :=
    threeOperandRule_of_binaryOp (fun _ _ _ => rfl) exec_mult
  simpa only [Obligations.MultWritesProductModulo32768, multWords_eq] using hrule

end Sys2Proof.Machine
end

section
/-! SUPPORT. What the range-checked access primitives answer, clause by clause, and rmem and wmem
(spec/20_memory.md R53, spec/46_memory_access.md R155, R156). -/

namespace Sys2Proof.Machine

/-! ### The access primitives -/

theorem memRead_of_lt (s : State) {ea : Word} (hea : ea.toNat < 32768) : memRead s ea = .ok (s.mem.readWord ea.toNat) :=
  if_pos hea

theorem memRead_of_le (s : State) {ea : Word} (hea : 32768 ≤ ea.toNat) : memRead s ea = .error .addressOutOfRange :=
  if_neg hea.not_gt

theorem memWrite_of_lt (s : State) {ea : Word} (v : Word) (hea : ea.toNat < 32768) :
    memWrite s ea v = .ok (s.storeWord ea.toNat v) :=
  if_pos hea

theorem memWrite_of_le (s : State) {ea : Word} (v : Word) (hea : 32768 ≤ ea.toNat) :
    memWrite s ea v = .error .addressOutOfRange :=
  if_neg hea.not_gt

/-! ### rmem -/

/-- In the format W2 shape a fault of the computation comes before the destination is looked at (R155). -/
theorem unaryOp_of_error {f : Word → Except FaultKind Word} (a : Operand) {b : Operand} {s : State} {vb : Word}
    {k : FaultKind} (hb : resolve s b = .ok vb) (hf : f vb = .error k) : unaryOp f a b s = .error k := by
  simp only [unaryOp, hb, hf, ok_bind, error_bind]

theorem exec_rmem (a b : Operand) (s : State) : exec (.rmem a b) s = complete s (unaryOp (memRead s) a b s) := rfl

/-- Settles O38: rmem is the format W2 shape with the range-checked read as its computation. -/
theorem rmemReadsMemoryWord : Obligations.RmemReadsMemoryWord := by
  refine fun a b s => ⟨rfl, fun r ea ha hb hea => ?_, fun hb => ?_, fun ea hb hea => ?_, fun ea hb hea ha => ?_⟩
  · subst ha
    exact exec_of_handler_ok (exec_rmem _ b s) (unaryOp_register r hb (memRead_of_lt s hea))
  · exact raises_of_handler_error (exec_rmem a b s) (unaryOp_of_isInvalid _ a s hb)
  · exact raises_of_handler_error (exec_rmem a b s) (unaryOp_of_error a hb (memRead_of_le s hea))
  · exact raises_of_handler_error (exec_rmem a b s) (unaryOp_of_not_isRegister hb (memRead_of_lt s hea) ha)

/-! ### wmem -/

theorem exec_wmem (a b : Operand) (s : State) : exec (.wmem a b) s = complete s (wmemHandler a b s) := rfl

theorem wmemHandler_of_resolve {a b : Operand} {s : State} {ea v : Word} (ha : resolve s a = .ok ea)
    (hb : resolve s b = .ok v) : wmemHandler a b s = memWrite (s.advance 3) ea v := by
  simp only [wmemHandler, ha, hb, ok_bind]

theorem wmemHandler_of_isInvalid {a b : Operand} (s : State) (h : a.isInvalid = true ∨ b.isInvalid = true) :
    wmemHandler a b s = .error .invalidOperand := by
  cases ha : a.isInvalid with
  | true => simp only [wmemHandler, resolve_of_isInvalid ha, error_bind]
  | false =>
    obtain ⟨ea, hea⟩ := resolve_ok_of_not_isInvalid s ha
    have hb : b.isInvalid = true := h.resolve_left (by simp [ha])
    simp only [wmemHandler, hea, resolve_of_isInvalid hb, ok_bind, error_bind]

/-- A store below the end of memory, past the three words of the instruction. -/
theorem exec_wmem_of_lt {a b : Operand} {s : State} {ea v : Word} (ha : resolve s a = .ok ea) (hb : resolve s b = .ok v)
    (hea : ea.toNat < 32768) : exec (.wmem a b) s = .next ((s.advance 3).storeWord ea.toNat v) :=
  exec_of_handler_ok (exec_wmem a b s) ((wmemHandler_of_resolve ha hb).trans (memWrite_of_lt _ v hea))

/-- Settles O39: the store is the canonical write of one word, which reads back at its own address and nowhere else; what
a fetch takes as opcode is what its address reads as. -/
theorem wmemStoresResolvedWord : Obligations.WmemStoresResolvedWord := by
  refine fun a b s => ⟨rfl, fun ea v hwf ha hb hea => ?_, fun h => ?_, fun ea ha hb hea => ?_⟩
  · have hread : ∀ x, ((s.advance 3).storeWord ea.toNat v).mem.readWord x =
        if x = ea.toNat then v else s.mem.readWord x :=
      fun x => Memory.readWord_writeWord hwf ea.toNat x v
    have hsame := (hread ea.toNat).trans (if_pos rfl)
    exact ⟨_, exec_wmem_of_lt ha hb hea, rfl, hsame, fun x hx => (hread x).trans (if_neg hx),
      fun i hi => (fetch_opcode hea hi).trans hsame⟩
  · exact raises_of_handler_error (exec_wmem a b s) (wmemHandler_of_isInvalid s h)
  · obtain ⟨v, hv⟩ := resolve_ok_of_not_isInvalid s hb
    exact raises_of_handler_error (exec_wmem a b s) ((wmemHandler_of_resolve ha hv).trans (memWrite_of_le _ v hea))

end Sys2Proof.Machine
end

section
/-! SUPPORT. What `Emit` and `NextInputChar()` come to, clause by clause, and out and in
(spec/47_io.md R160 to R164). -/

namespace Sys2Proof.Machine

/-! ### out -/

theorem outByte_of_le {s : State} {a : Operand} {v : Word} (ha : resolve s a = .ok v) (hv : v.toNat ≤ 255) :
    outByte s a = .ok (BitVec.ofNat 8 v.toNat) := by
  simp only [outByte, ha, ok_bind, Config.outMax, if_pos hv]

theorem outByte_of_lt {s : State} {a : Operand} {v : Word} (ha : resolve s a = .ok v) (hv : 255 < v.toNat) :
    outByte s a = .error .invalidOperand := by
  simp only [outByte, ha, ok_bind, Config.outMax, if_neg hv.not_ge]

theorem outByte_of_isInvalid {a : Operand} (s : State) (ha : a.isInvalid = true) :
    outByte s a = .error .invalidOperand := by
  simp only [outByte, resolve_of_isInvalid ha, error_bind]

theorem emit_of_ok {s : State} (v : Byte) (h : s.outputAnswer = .ok) :
    emit s v = (s.takeOutputAnswer.emitByte v).advance 2 := by
  simp only [emit, h]

theorem emit_of_channelError {s : State} (v : Byte) (h : s.outputAnswer = .channelError) :
    emit s v = s.takeOutputAnswer.takeFault .ioError := by
  simp only [emit, h]

theorem State.outputAnswer_of_cons {s : State} {answer : OutputAnswer} {answers : List OutputAnswer}
    (h : s.outAnswers = answer :: answers) : s.outputAnswer = answer := by
  rw [State.outputAnswer, h, List.headD_cons]

theorem State.takeOutputAnswer_of_cons {s : State} {answer : OutputAnswer} {answers : List OutputAnswer}
    (h : s.outAnswers = answer :: answers) : s.takeOutputAnswer = { s with outAnswers := answers } := by
  rw [State.takeOutputAnswer, h, List.tail_cons]

/-- An operand that gives a byte leaves the rest to the channel. -/
theorem exec_out_of_byte {a : Operand} {s : State} {v : Byte} (h : outByte s a = .ok v) :
    exec (.out a) s = .next (emit s v) := by
  simp only [exec, execOut, outEffect, h]

theorem raises_out_of_outByte_error {a : Operand} {s : State} {k : FaultKind} (h : outByte s a = .error k) :
    Raises (.out a) s k :=
  ⟨s.takeFault k, by simp only [exec, execOut, outEffect, h], s.takeFault_faultedWith k⟩

/-- A byte the channel accepts joins the output, and its answer is used up (R161). -/
theorem exec_out_of_accepted {a : Operand} {s : State} {v : Word} (ha : resolve s a = .ok v) (hv : v.toNat ≤ 255)
    (h : s.outputAnswer = .ok) :
    exec (.out a) s = .next ((s.takeOutputAnswer.emitByte (BitVec.ofNat 8 v.toNat)).advance 2) := by
  rw [exec_out_of_byte (outByte_of_le ha hv), emit_of_ok _ h]

/-- A byte the channel refuses is IOError (R161). -/
theorem raises_out_of_channelError {a : Operand} {s : State} {v : Word} (ha : resolve s a = .ok v)
    (hv : v.toNat ≤ 255) (h : s.outputAnswer = .channelError) : Raises (.out a) s .ioError :=
  ⟨s.takeOutputAnswer.takeFault .ioError,
    by rw [exec_out_of_byte (outByte_of_le ha hv), emit_of_channelError _ h],
    s.takeOutputAnswer.takeFault_faultedWith .ioError⟩

/-- Settles O42: the operand decides first whether there is a byte, then the host's answer whether it goes out. -/
theorem outEmitsOneByte : Obligations.OutEmitsOneByte := by
  refine fun a s => ⟨rfl, fun v answers ha hv h => ?_, fun ha => ?_, fun v ha hv => ?_, fun v answers ha hv h => ?_⟩
  · rw [exec_out_of_accepted ha hv (State.outputAnswer_of_cons h), State.takeOutputAnswer_of_cons h]
    rfl
  · exact raises_out_of_outByte_error (outByte_of_isInvalid s ha)
  · exact raises_out_of_outByte_error (outByte_of_lt ha hv)
  · exact raises_out_of_channelError ha hv (State.outputAnswer_of_cons h)

/-! ### in -/

theorem nextInputChar_buffered {s : State} {ch : Word} {buf : List Word} (hb : s.inputBuf = ch :: buf) :
    nextInputChar s = .char ch (s.setInput buf s.lineAnswers) := by
  simp only [nextInputChar, hb]

/-- An empty buffer takes the whole line the host answers with, and its first code is the character (R163, R164). -/
theorem nextInputChar_line {s : State} {ch : Word} {buf : List Word} {answers : List LineAnswer}
    (hb : s.inputBuf = []) (hl : s.lineAnswers = .line ch buf :: answers) :
    nextInputChar s = .char ch (s.setInput buf answers) := by
  simp only [nextInputChar, hb, hl]

theorem exec_in_register {s u : State} {ch : Word} (r : Fin 8) (h : nextInputChar s = .char ch u) :
    exec (.in_ (.register r)) s = .next ((u.advance 2).writeReg r ch) := by
  simp only [exec, execIn, inEffect, h, deliverChar, writeDest_register]

theorem execAll_cons_of_next {i : Instr} {s t : State} (is : List Instr) (h : exec i s = .next t) :
    execAll (i :: is) s = execAll is t := by
  simp only [execAll, h]

/-- Where the next character is `ch` and `buf` is buffered behind it, executions of `in` take the codes of `ch :: buf` one
by one and request no further line. The hypothesis does not say whether `ch` was buffered or comes from a line request, so
the induction on the number of executions covers the request at the start and the buffered codes after it alike. -/
theorem execAll_replicate_in (r : Fin 8) (answers : List LineAnswer) (k : Nat) {ch : Word} {buf : List Word} {s : State}
    (h : nextInputChar s = .char ch (s.setInput buf answers)) (hk : k < (ch :: buf).length) :
    ∃ t, execAll (List.replicate (k + 1) (.in_ (.register r))) s = .next t ∧
      t.readReg r = (ch :: buf).getD k 0 ∧ t.inputBuf = (ch :: buf).drop (k + 1) ∧ t.lineAnswers = answers := by
  induction k generalizing ch buf s with
  | zero =>
    exact ⟨_, execAll_cons_of_next [] (exec_in_register r h), State.writeReg_readReg_self _ r ch, rfl, rfl⟩
  | succ k ih =>
    obtain _ | ⟨ch', buf'⟩ := buf
    · simp at hk
    · rw [List.replicate_succ, execAll_cons_of_next _ (exec_in_register r h), List.getD_cons_succ, List.drop_succ_cons]
      exact ih (nextInputChar_buffered rfl) (Nat.lt_of_succ_lt_succ hk)

/-- Settles O45: the first `in` requests the line, and the codes are then taken one by one. -/
theorem lineIsDeliveredInOrder : Obligations.LineIsDeliveredInOrder :=
  fun r _ _ answers _ k hb hl hk => execAll_replicate_in r answers k (nextInputChar_line hb hl) hk

end Sys2Proof.Machine
end

section
/-! SUPPORT. The words of an image, the outcome of the boot sequence, and the state it leaves
(spec/70_reset_and_hazards.md R200 to R203). -/

namespace Sys2Proof.Machine

/-! ### The words of an image -/

/-- Two bytes fill a word without a carry out of it. -/
theorem littleEndian_toNat (lo hi : Byte) : (littleEndian lo hi).toNat = lo.toNat + 256 * hi.toNat := by
  simp only [littleEndian, BitVec.toNat_ofNat]
  omega

/-- A truncated last word makes the whole image unreadable. -/
theorem imageWords_of_odd {image : List Byte} (h : image.length % 2 = 1) : imageWords image = none := by
  induction image using imageWords.induct with
  | case1 => contradiction
  | case2 => rfl
  | case3 lo hi rest ih =>
    have hrest : rest.length % 2 = 1 := by simp only [List.length_cons] at h; omega
    simp only [imageWords, ih hrest, Option.map_none]

/-- An image of whole words is read word by word, low byte first. Beyond the image both sides are 0. -/
theorem imageWords_of_even {image : List Byte} (h : image.length % 2 = 0) :
    ∃ ws, imageWords image = some ws ∧ ws.length = image.length / 2 ∧
      ∀ k, (ws.getD k 0).toNat = (image.getD (2 * k) 0).toNat + 256 * (image.getD (2 * k + 1) 0).toNat := by
  induction image using imageWords.induct with
  | case1 => exact ⟨[], rfl, rfl, fun _ => rfl⟩
  | case2 => contradiction
  | case3 lo hi rest ih =>
    have hrest : rest.length % 2 = 0 := by simp only [List.length_cons] at h; omega
    obtain ⟨ws, hws, hlen, hget⟩ := ih hrest
    refine ⟨littleEndian lo hi :: ws, by simp only [imageWords, hws, Option.map_some], ?_, fun k => ?_⟩
    · simp only [List.length_cons, hlen]
      omega
    · cases k with
      | zero => exact littleEndian_toNat lo hi
      | succ k => exact hget k

/-! ### The boot sequence -/

/-- An image that does not load leaves the failed load's state (R202, R203), whatever its bytes are. -/
theorem boot_eq_loadFailed {image : List Byte} (h : image.length % 2 = 1 ∨ 32768 < image.length / 2) :
    boot image = loadFailed := by
  obtain heven | hodd := Nat.mod_two_eq_zero_or_one image.length
  · obtain ⟨ws, hws, hlen, -⟩ := imageWords_of_even heven
    have hlong : ¬ ws.length ≤ Config.memWords := by simp only [Config.memWords]; omega
    simp only [boot, hws, if_neg hlong]
  · simp only [boot, imageWords_of_odd hodd]

/-- An image that loads leaves the reset state but for memory, and memory reads as the image's words from address 0 on
(R200, R202). -/
theorem boot_loads {image : List Byte} (heven : image.length % 2 = 0) (hfits : image.length / 2 ≤ 32768) :
    ∃ m : Memory, boot image = { State.reset with mem := m } ∧
      ∀ k, (m.readWord k).toNat = (image.getD (2 * k) 0).toNat + 256 * (image.getD (2 * k + 1) 0).toNat := by
  obtain ⟨ws, hws, hlen, hget⟩ := imageWords_of_even heven
  refine ⟨Memory.ofWords 0 ws, by simp only [boot, hws, if_pos (hlen.trans_le hfits)], fun k => ?_⟩
  have hread : (Memory.ofWords 0 ws).readWord k = ws.getD k 0 := by
    simpa only [Nat.zero_add] using Memory.readWord_ofWords ws 0 k
  rw [hread, hget]

theorem loadFailed_faultedWith : loadFailed.faultedWith .loadError := ⟨0, rfl⟩

/-- Settles O56: both bad images leave the failed load's state, and a good one the reset state with its words. -/
theorem loaderFillsMemoryOrFails : Obligations.LoaderFillsMemoryOrFails := by
  refine fun image => ⟨fun hodd => ?_, fun hlong => ?_, fun heven hfits => ?_⟩
  · rw [boot_eq_loadFailed (.inl hodd)]
    exact loadFailed_faultedWith
  · rw [boot_eq_loadFailed (.inr hlong)]
    exact loadFailed_faultedWith
  · obtain ⟨m, hboot, hread⟩ := boot_loads heven hfits
    rw [hboot]
    exact ⟨rfl, fun k _ => hread k⟩

theorem State.reset_regs (r : Fin 8) : State.reset.regs[r] = 0 := Vector.getElem_replicate r.isLt

/-- Settles O57: memory is the only element a good load changes, and beyond the image the bytes that would make up a word
are missing, so that it reads 0. -/
theorem resetState : Obligations.ResetState := by
  intro image heven hfits
  obtain ⟨m, hboot, hread⟩ := boot_loads heven hfits
  rw [hboot]
  refine ⟨State.reset_regs, rfl, rfl, rfl, rfl, fun k _ => hread k, fun k hk => BitVec.eq_of_toNat_eq ?_⟩
  have hlo : image.getD (2 * k) 0 = 0 := List.getD_eq_default _ _ (by omega)
  have hhi : image.getD (2 * k + 1) 0 = 0 := List.getD_eq_default _ _ (by omega)
  rw [hread k, hlo, hhi]
  rfl

end Sys2Proof.Machine
end

section
/-! SUPPORT. The round trip of the encoder and the decoder: decoding gives back every well-formed instruction, and what is
decoded encodes to the words that stood there (spec/30_encoding.md R70, R71, R73, R77). -/

namespace Sys2Proof

/-! ### Decoding what was encoded -/

theorem Instr.wf_iff (i : Instr) : i.wf = true ↔ ∀ o ∈ i.operands, o.wf = true :=
  List.all_eq_true

theorem formatW1_toWord (mk : Operand → Instr) {a : Operand} (rest : List Word) (h : ∀ o ∈ [a], o.wf = true) :
    formatW1 mk (a.toWord :: rest) = .ok (mk a, rest) := by
  simp only [formatW1, Operand.ofWord_toWord (h a (by simp))]

theorem formatW2_toWord (mk : Operand → Operand → Instr) {a b : Operand} (rest : List Word)
    (h : ∀ o ∈ [a, b], o.wf = true) : formatW2 mk (a.toWord :: b.toWord :: rest) = .ok (mk a b, rest) := by
  simp only [formatW2, Operand.ofWord_toWord (h a (by simp)), Operand.ofWord_toWord (h b (by simp))]

theorem formatW3_toWord (mk : Operand → Operand → Operand → Instr) {a b c : Operand} (rest : List Word)
    (h : ∀ o ∈ [a, b, c], o.wf = true) :
    formatW3 mk (a.toWord :: b.toWord :: c.toWord :: rest) = .ok (mk a b c, rest) := by
  simp only [formatW3, Operand.ofWord_toWord (h a (by simp)), Operand.ofWord_toWord (h b (by simp)),
    Operand.ofWord_toWord (h c (by simp))]

/-- Settles O2: the opcode word selects the instruction's own row of the opcode map, and the row's format reads each
operand word back as its operand. -/
theorem decodeOfEncodeGivesItBack : Obligations.DecodeOfEncodeGivesItBack := by
  intro i rest hwf
  have ho := i.wf_iff.1 hwf
  cases i with
  | halt | ret | noop => rfl
  | push | pop | jmp | call | out | in_ => exact formatW1_toWord _ rest ho
  | set | jt | jf | not | rmem | wmem => exact formatW2_toWord _ rest ho
  | eq | gt | add | mult | mod | and | or => exact formatW3_toWord _ rest ho

/-! ### Encoding what was decoded -/

/-- The operands of an instruction read from operand words are those words' classes, and the words it leaves are the ones
behind them. -/
theorem decodeOp_operands {op : Nat} {ws rest : List Word} {i : Instr} (h : decodeOp op ws = .ok (i, rest)) :
    ∃ args, ws = args ++ rest ∧ i.operands = args.map Operand.ofWord := by
  match op, h with
  | 0, h | 18, h | 21, h => cases h; exact ⟨[], rfl, rfl⟩
  | 2, h | 3, h | 6, h | 17, h | 19, h | 20, h => obtain ⟨a, rfl, rfl⟩ := formatW1_ok h; exact ⟨[a], rfl, rfl⟩
  | 1, h | 7, h | 8, h | 14, h | 15, h | 16, h => obtain ⟨a, b, rfl, rfl⟩ := formatW2_ok h; exact ⟨[a, b], rfl, rfl⟩
  | 4, h | 5, h | 9, h | 10, h | 11, h | 12, h | 13, h =>
    obtain ⟨a, b, c, rfl, rfl⟩ := formatW3_ok h
    exact ⟨[a, b, c], rfl, rfl⟩
  | n + 22, h => cases h

/-- Settles O3: the first word is the opcode, the operands are the classes of the words behind it, and a word's class is
well-formed and keeps the word. -/
theorem encodeOfDecodeGivesTheWords : Obligations.EncodeOfDecodeGivesTheWords := by
  intro ws i rest h
  cases ws with
  | nil => cases h
  | cons op ws =>
    obtain ⟨args, rfl, ho⟩ := decodeOp_operands h
    have hargs : i.operands.map Operand.toWord = args := by simp [ho, Function.comp_def]
    exact ⟨by simp [Instr.wf_iff, ho], by simp only [encode, decode_opcode h, hargs, List.cons_append]⟩

end Sys2Proof
end

section
/-! SUPPORT. The fetch unit: when it gives an instruction, and that the instruction's words are the memory words from pc on
(spec/40_fetch_dispatch.md R101 to R103, R111). -/

namespace Sys2Proof

theorem arity?_opcode (i : Instr) : arity? i.opcode = some i.operands.length := by
  cases i <;> rfl

/-- MAX_ARITY (R6). -/
theorem arity?_le_three {op : Word} {n : Nat} (h : arity? op = some n) : n ≤ 3 :=
  (by decide : ∀ n ∈ arityTable, n ≤ 3) n (List.mem_of_getElem? h)

theorem Instr.length_le_four (i : Instr) : i.length ≤ 4 := by
  have h := arity?_le_three (arity?_opcode i)
  simp only [Instr.length]
  omega

/-! ### Decoding by the arity -/

theorem formatW1_cases (mk : Operand → Instr) (ws : List Word) :
    (ws.length < 1 ∧ formatW1 mk ws = .error .missingOperand) ∨ ∃ i rest, formatW1 mk ws = .ok (i, rest) := by
  match ws with
  | [] => exact .inl ⟨by simp, rfl⟩
  | a :: rest => exact .inr ⟨_, rest, rfl⟩

theorem formatW2_cases (mk : Operand → Operand → Instr) (ws : List Word) :
    (ws.length < 2 ∧ formatW2 mk ws = .error .missingOperand) ∨ ∃ i rest, formatW2 mk ws = .ok (i, rest) := by
  match ws with
  | [] | [_] => exact .inl ⟨by simp, rfl⟩
  | a :: b :: rest => exact .inr ⟨_, rest, rfl⟩

theorem formatW3_cases (mk : Operand → Operand → Operand → Instr) (ws : List Word) :
    (ws.length < 3 ∧ formatW3 mk ws = .error .missingOperand) ∨ ∃ i rest, formatW3 mk ws = .ok (i, rest) := by
  match ws with
  | [] | [_] | [_, _] => exact .inl ⟨by simp, rfl⟩
  | a :: b :: c :: rest => exact .inr ⟨_, rest, rfl⟩

/-- A defined opcode fails only for want of operand words, and then fewer follow than its arity asks for. -/
theorem decodeOp_cases_of_arity {op n : Nat} (h : arityTable[op]? = some n) (ws : List Word) :
    (ws.length < n ∧ decodeOp op ws = .error .missingOperand) ∨ ∃ i rest, decodeOp op ws = .ok (i, rest) := by
  match op, h with
  | 0, h | 18, h | 21, h => exact .inr ⟨_, ws, rfl⟩
  | 2, h | 3, h | 6, h | 17, h | 19, h | 20, h => cases h; exact formatW1_cases _ ws
  | 1, h | 7, h | 8, h | 14, h | 15, h | 16, h => cases h; exact formatW2_cases _ ws
  | 4, h | 5, h | 9, h | 10, h | 11, h | 12, h | 13, h => cases h; exact formatW3_cases _ ws
  | m + 22, h => cases h

namespace Machine

/-! ### The words of memory the fetch unit reads -/

/-- The words from an address on are, as far as memory goes, any number of them and then the words behind those. -/
theorem Memory.wordsFrom_add (m : Memory) (a j n : Nat) (h : a + j ≤ 32768) :
    m.wordsFrom a (j + n) = (List.range j).map (fun k => m.readWord (a + k)) ++ m.wordsFrom (a + j) n := by
  induction j generalizing a with
  | zero => simp
  | succ j ih =>
    rw [Nat.succ_add, m.wordsFrom_succ (j + n) (by omega), ih (a + 1) (by omega), List.range_succ_eq_map]
    simp [Function.comp_def, Nat.add_assoc, Nat.add_comm 1]

theorem Memory.wordsFrom_length (m : Memory) {a : Nat} (n : Nat) (h : a ≤ 32768) :
    (m.wordsFrom a n).length = min n (32768 - a) := by
  rw [m.wordsFrom_eq a n h, List.length_map, List.length_range]

/-- What the decoder reads from the words at an address fits into memory from that address on. -/
theorem fits_of_decode_wordsFrom {m : Memory} {a n : Nat} {i : Instr} {rest : List Word}
    (h : decode (m.wordsFrom a n) = .ok (i, rest)) (ha : a ≤ 32768) : a + i.length ≤ 32768 := by
  have hlen := congrArg List.length (encodeOfDecodeGivesTheWords _ i rest h).2
  rw [List.length_append, encode_length, m.wordsFrom_length n ha] at hlen
  omega

/-- A fetched instruction's words lie within memory (R103). -/
theorem fetch_fits {m : Memory} {p : Word} {i : Instr} (h : fetch m p = .ok i) : p.toNat + i.length ≤ 32768 := by
  obtain hp | hp := Nat.lt_or_ge p.toNat 32768
  · obtain ⟨rest, hd⟩ := fetch_ok h
    exact fits_of_decode_wordsFrom hd hp.le
  · simp [fetch_past_end m hp] at h

/-- A fetched instruction is well-formed and its words are the memory words from `p` on (R111). -/
theorem fetch_words {m : Memory} {p : Word} {i : Instr} (h : fetch m p = .ok i) :
    i.wf = true ∧ encode i = (List.range i.length).map fun k => m.readWord (p.toNat + k) := by
  obtain ⟨rest, hd⟩ := fetch_ok h
  obtain ⟨hwf, hws⟩ := encodeOfDecodeGivesTheWords _ i rest hd
  obtain ⟨n, hn⟩ := Nat.exists_eq_add_of_le i.length_le_four
  rw [hn, m.wordsFrom_add p.toNat i.length n (fetch_fits h)] at hws
  exact ⟨hwf, (List.append_inj hws (by simp)).1⟩

/-- Where the words of a well-formed instruction stand in memory, it is the one that is fetched. -/
theorem fetch_of_words {m : Memory} {p : Word} {i : Instr} (hwf : i.wf = true) (hfits : p.toNat + i.length ≤ 32768)
    (hws : encode i = (List.range i.length).map fun k => m.readWord (p.toNat + k)) : fetch m p = .ok i := by
  obtain ⟨n, hn⟩ := Nat.exists_eq_add_of_le i.length_le_four
  refine fetch_of_decode (rest := m.wordsFrom (p.toNat + i.length) n) ?_
  rw [hn, m.wordsFrom_add p.toNat i.length n hfits, ← hws]
  exact decodeOfEncodeGivesItBack i _ hwf

/-- A fetch of a defined opcode gives an instruction, or memory ends before the operand words do. -/
theorem fetch_cases_of_arity {m : Memory} {p : Word} {n : Nat} (hp : p.toNat < 32768)
    (h : arity? (m.readWord p.toNat) = some n) :
    (32768 < p.toNat + 1 + n ∧ fetch m p = .error .addressOutOfRange) ∨ ∃ i, fetch m p = .ok i ∧ i.length = 1 + n := by
  obtain ⟨hlt, he⟩ | ⟨i, rest, hd⟩ := decodeOp_cases_of_arity h (m.wordsFrom (p.toNat + 1) 3)
  · have hn := arity?_le_three h
    rw [m.wordsFrom_length 3 hp] at hlt
    have hd : decode (m.wordsFrom p.toNat Config.maxWords) = .error .missingOperand :=
      (congrArg decode (m.wordsFrom_succ 3 hp)).trans he
    exact .inl ⟨by omega, by simp only [fetch, hd]⟩
  · have hi : fetch m p = .ok i := fetch_of_decode ((congrArg decode (m.wordsFrom_succ 3 hp)).trans hd)
    have hlen := (arity?_opcode i).symm.trans ((congrArg arity? (fetch_opcode hp hi)).trans h)
    exact .inr ⟨i, hi, congrArg (1 + ·) (Option.some.inj hlen)⟩

/-- Settles O9: the two faults of the opcode word first; a defined opcode then gives an instruction exactly when its words
fit. -/
theorem fetchUnit : Obligations.FetchUnit := by
  refine fun m p => ⟨fetch_past_end m, fun hp h => ?_, fun n hp h hlong => ?_, fun n h hfits => ?_⟩
  · exact fetch_illegal_opcode hp ((arity?_eq_none_iff _).1 h)
  · obtain ⟨-, he⟩ | ⟨i, hi, hlen⟩ := fetch_cases_of_arity hp h
    · exact he
    · have hfits := fetch_fits hi
      omega
  · obtain ⟨hlong, -⟩ | ⟨i, hi, hlen⟩ := fetch_cases_of_arity (by omega) h
    · omega
    · exact ⟨i, hi, hlen ▸ fetch_words hi⟩

/-- Settles O10: the fetch unit gives what the decoder reads at pc, and a running step is exec of it. -/
theorem stepRunsDecodedInstruction : Obligations.StepRunsDecodedInstruction :=
  fun _ _ _ hs hd => step_of_fetch_ok hs (fetch_of_decode hd)

/-- An instruction whose words stand at pc is the one fetched there. -/
theorem fetch_of_holdsAtPc {s : State} {i : Instr} (hwf : i.wf = true) (h : s.holdsAtPc i) :
    fetch s.mem s.pc = .ok i := by
  obtain ⟨hfits, hws⟩ := h
  refine fetch_of_words hwf hfits (List.ext_getElem (by simp) fun k hk _ => ?_)
  rw [encode_length] at hk
  simp [hws k hk, hk]

/-- Settles O11: the words that stand at pc are the ones the fetch unit reads there. -/
theorem stepRunsWordsInMemory : Obligations.StepRunsWordsInMemory :=
  fun _ _ hs hwf h => step_of_fetch_ok hs (fetch_of_holdsAtPc hwf h)

end Machine

end Sys2Proof
end

section
/-! SUPPORT. What every step and every run keeps: a step always answers a next state, a terminal core keeps its state, and
the invariant holds of every state of every run (spec/10_state.md R27, R38, spec/60_exceptions.md R173, R174,
spec/70_reset_and_hazards.md R200 to R204). -/

namespace Sys2Proof.Machine

/-! ### Every step answers, and a terminal core keeps its state -/

theorem exec_answers_next (i : Instr) (s : State) : ∃ t, exec i s = .next t := by
  cases i <;> exact ⟨_, rfl⟩

theorem step_of_isTerminal {s : State} (h : s.status.isTerminal = true) : step s = .next s := by
  cases hs : s.status with
  | running => simp [hs, RunStatus.isTerminal] at h
  | halted => simp only [step, hs]
  | faulted kind p => simp only [step, hs]

/-- Settles O12: a terminal core keeps its state, and a running one takes the fetch's fault or runs an instruction, every
meaning of which answers a next state. -/
theorem everyStepAnswersANextState : Obligations.EveryStepAnswersANextState := by
  intro s
  cases hs : s.status with
  | halted | faulted kind p => exact ⟨s, step_of_isTerminal (by rw [hs]; rfl)⟩
  | running =>
    cases hf : fetch s.mem s.pc with
    | ok i => rw [step_of_fetch_ok hs hf]; exact exec_answers_next i s
    | error kind => exact ⟨_, step_of_fetch_error hs hf⟩

theorem run_succ_of_step {s t : State} (k : Nat) (h : step s = .next t) :
    Host.Core.run core (k + 1) s = Host.Core.run core k t := by
  have hstep : core.step s = .next t := h
  simp only [Host.Core.run, hstep]

/-- Settles O13: by induction on the number of steps, each of which keeps the state. -/
theorem terminalStateIsKept : Obligations.TerminalStateIsKept := by
  intro s k h
  induction k with
  | zero => rfl
  | succ k ih => rw [run_succ_of_step k (step_of_isTerminal h), ih]

/-- What every step keeps holds at the end of a run that starts with it. -/
theorem run_keeps {P : State → Prop} (hP : ∀ s t, P s → step s = .next t → P t) {k : Nat} {s t : State}
    (hs : P s) (h : Host.Core.run core k s = .next t) : P t := by
  induction k generalizing s with
  | zero => cases h; exact hs
  | succ k ih =>
    obtain ⟨u, hu⟩ := everyStepAnswersANextState s
    rw [run_succ_of_step k hu] at h
    exact ih (hP s u hs hu) h

/-! ### The invariant, part by part -/

/-- The one effect that reaches memory is a range-checked store (R53). -/
theorem Effect.mem_eq_or_store {i : Instr} {s t : State} (h : Effect i s t) :
    t.mem = s.mem ∨ ∃ a b, i = .wmem a b ∧ ∃ (ea v : Word), ea.toNat < 32768 ∧ t.mem = s.mem.writeWord ea.toNat v := by
  cases h with
  | store a b ea v h _ _ hea => exact .inr ⟨a, b, h, ea, v, hea, rfl⟩
  | fault | stand | write | halted | jump | push | pop | call | ret | emitted | outFailed | waits | inFailed | delivered
  | charLost => exact .inl rfl

/-- pc stays where it was, goes past the instruction's words, or goes to a range-checked target (R107, R140). -/
theorem Effect.pc_cases {i : Instr} {s t : State} (h : Effect i s t) :
    t.pc = s.pc ∨ t.pc = s.pc + BitVec.ofNat 16 i.length ∨ t.pc.toNat < 32768 := by
  cases h with
  | fault | outFailed | waits | inFailed | charLost => exact .inl rfl
  | stand | write | halted => exact .inr (.inl rfl)
  | push _ _ h | pop _ _ _ _ h | store _ _ _ _ h | emitted _ _ h | delivered _ _ _ _ _ h =>
    subst h; exact .inr (.inl rfl)
  | jump q hq | call _ q _ hq | ret _ q _ _ hq => exact .inr (.inr hq)

/-- What a fault leaves (decisions D7, D23): the status records the kind and the opcode's address, and all else is as
before, but for the host's answers and, after an `in`, the input buffer. -/
structure FaultsAt (i : Instr) (s t : State) (kind : FaultKind) : Prop where
  status : t.status = .faulted kind s.pc
  may : kind ∈ i.mayRaise
  pc : t.pc = s.pc
  regs : t.regs = s.regs
  mem : t.mem = s.mem
  stack : t.stack = s.stack
  output : t.output = s.output
  inputBuf : (∀ a, i ≠ .in_ a) → t.inputBuf = s.inputBuf

/-- An instruction leaves the status, ends the run in success, or ends it in a fault. -/
theorem Effect.status_cases {i : Instr} {s t : State} (h : Effect i s t) :
    t.status = s.status ∨ (t.status = .halted ∧ (i = .halt ∨ i = .ret ∧ s.stack = [])) ∨ ∃ kind, FaultsAt i s t kind := by
  cases h with
  | stand | write | jump | push | pop | call | ret | store | emitted | waits | delivered => exact .inl rfl
  | halted h => exact .inr (.inl ⟨rfl, h⟩)
  | fault kind may => exact .inr (.inr ⟨kind, rfl, may, rfl, rfl, rfl, rfl, rfl, fun _ => rfl⟩)
  | outFailed a h =>
    subst h
    exact .inr (.inr ⟨_, rfl, by simp [Instr.mayRaise], rfl, rfl, rfl, rfl, rfl, fun _ => rfl⟩)
  | inFailed a _ h | charLost a _ _ h =>
    subst h
    exact .inr (.inr ⟨_, rfl, by simp [Instr.mayRaise], rfl, rfl, rfl, rfl, rfl, fun hin => absurd rfl (hin a)⟩)

theorem Effect.wf_mem {i : Instr} {s t : State} (h : Effect i s t) (hwf : s.mem.wf = true) : t.mem.wf = true := by
  obtain hm | ⟨_, _, _, ea, v, hea, hm⟩ := h.mem_eq_or_store
  · rwa [hm]
  · rw [hm]
    exact Memory.wf_writeWord v hwf hea

/-- Where the instruction's words lie within memory, pc stays in its range (R27). -/
theorem Effect.pc_le {i : Instr} {s t : State} (h : Effect i s t) (hfits : s.pc.toNat + i.length ≤ 32768) :
    t.pc.toNat ≤ 32768 := by
  obtain hpc | hpc | hpc := h.pc_cases
  · rw [hpc]; omega
  · rwa [hpc, pc_add_toNat hfits]
  · exact hpc.le

theorem FaultsAt.eq_of_status {i : Instr} {s t : State} {k kind : FaultKind} {p : Word} (h : FaultsAt i s t k)
    (hf : t.status = .faulted kind p) : k = kind ∧ p = s.pc := by
  have hkp := h.status.symm.trans hf
  simp only [RunStatus.faulted.injEq] at hkp
  exact ⟨hkp.1, hkp.2.symm⟩

/-- A running core that an instruction leaves faulted is as `FaultsAt` says. -/
theorem Effect.faultsAt {i : Instr} {s t : State} (h : Effect i s t) (hs : s.status = .running) {kind : FaultKind}
    {p : Word} (hf : t.status = .faulted kind p) : FaultsAt i s t kind ∧ p = s.pc := by
  obtain he | ⟨he, -⟩ | ⟨k, he⟩ := h.status_cases
  · simp [he, hs] at hf
  · simp [he] at hf
  · obtain ⟨rfl, hp⟩ := he.eq_of_status hf
    exact ⟨he, hp⟩

/-- An instruction of a running core records in a fault the pc it leaves (R174). -/
theorem Effect.faultIP {i : Instr} {s t : State} (h : Effect i s t) (hs : s.status = .running) {kind : FaultKind}
    {p : Word} (hf : t.status = .faulted kind p) : p = t.pc := by
  obtain ⟨hfault, rfl⟩ := h.faultsAt hs hf
  exact hfault.pc.symm

theorem Effect.inv {i : Instr} {s t : State} (h : Effect i s t) (hinv : s.Inv) (hs : s.status = .running)
    (hfits : s.pc.toNat + i.length ≤ 32768) : t.Inv :=
  ⟨h.wf_mem hinv.memory, h.pc_le hfits, fun _ _ => h.faultIP hs⟩

theorem State.Inv.takeFault {s : State} (h : s.Inv) (kind : FaultKind) : (s.takeFault kind).Inv := by
  refine ⟨h.memory, h.pcRange, fun k p hf => ?_⟩
  simp only [takeFault_status, RunStatus.faulted.injEq] at hf
  exact hf.2.symm

/-- Settles O15: a step keeps the state, takes the fetch's fault at pc, or runs an instruction whose words lie within
memory. -/
theorem stepKeepsInvariant : Obligations.StepKeepsInvariant := by
  intro s t hinv h
  obtain ⟨-, rfl⟩ | ⟨hs, ⟨k, -, rfl⟩ | ⟨i, hi, he⟩⟩ := step_cases h
  · exact hinv
  · exact hinv.takeFault k
  · exact (exec_effect he).inv hinv hs (fetch_fits hi)

/-! ### The invariant after a load -/

/-- Settles O14: memory is empty, pc is 0 and the core runs. -/
theorem invariantAtReset : Obligations.InvariantAtReset :=
  ⟨Memory.wf_nil, by decide, fun _ _ h => by simp [State.reset] at h⟩

theorem loadFailed_inv : loadFailed.Inv := by
  refine ⟨Memory.wf_nil, by decide, fun k p h => ?_⟩
  simp only [loadFailed, RunStatus.faulted.injEq] at h
  exact h.2.symm

theorem boot_inv (image : List Byte) : (boot image).Inv := by
  unfold boot
  split
  · exact loadFailed_inv
  · split
    · next ws _ hfits =>
      exact ⟨Memory.wfFrom_ofWords ws 0 0 le_rfl (by omega), invariantAtReset.pcRange, invariantAtReset.faultIP⟩
    · exact loadFailed_inv

/-- The invariant does not look at the host's answers. -/
theorem State.Inv.withAnswers {s : State} (h : s.Inv) (lines : List LineAnswer) (outs : List OutputAnswer) :
    State.Inv { s with lineAnswers := lines, outAnswers := outs } :=
  ⟨h.memory, h.pcRange, h.faultIP⟩

/-- Settles O16: the load establishes the invariant and every step keeps it. -/
theorem runFromAnyImageKeepsInvariant : Obligations.RunFromAnyImageKeepsInvariant :=
  fun image lines outs _ _ h => run_keeps stepKeepsInvariant ((boot_inv image).withAnswers lines outs) h

/-- Settles O58: a failed load is terminal, so no step of the run changes it. -/
theorem loadErrorRunsNothing : Obligations.LoadErrorRunsNothing := by
  intro image k h
  rw [boot_eq_loadFailed h]
  exact ⟨rfl, terminalStateIsKept loadFailed k rfl⟩

/-- Settles O59: the image of 0 bytes leaves memory empty, and the word 0 that then stands at pc is halt. -/
theorem emptyImageHaltsAtOnce : Obligations.EmptyImageHaltsAtOnce := by
  have hfetch : fetch State.reset.mem State.reset.pc = .ok .halt := rfl
  exact ⟨rfl, (step_of_fetch_ok rfl hfetch).trans (exec_halt State.reset)⟩

end Sys2Proof.Machine
end

section
/-! SUPPORT. The canonical form of memory: what memory reads as determines it (spec/20_memory.md R54, R55; log entry 1). -/

namespace Sys2Proof.Machine.Memory

theorem wfFrom_cons_iff {lo a : Nat} {w : Word} {m : Memory} :
    wfFrom lo ((a, w) :: m) = true ↔ lo ≤ a ∧ a < 32768 ∧ w ≠ 0 ∧ wfFrom (a + 1) m = true := by
  simp [wfFrom, and_assoc]

theorem readWord_head (a : Nat) (w : Word) (m : Memory) : readWord ((a, w) :: m) a = w := if_pos rfl

theorem readWord_tail {a x : Nat} (w : Word) (m : Memory) (h : x ≠ a) : readWord ((a, w) :: m) x = m.readWord x :=
  if_neg h

/-- The first listed address does not read 0. -/
theorem readWord_head_ne_zero {lo a : Nat} {w : Word} {m : Memory} (h : wfFrom lo ((a, w) :: m) = true) :
    readWord ((a, w) :: m) a ≠ 0 := by
  obtain ⟨-, -, hw, -⟩ := wfFrom_cons_iff.1 h
  rwa [readWord_head]

/-- No address that does not read 0 lies below the first listed one. -/
theorem head_le_of_readWord_ne_zero {lo b x : Nat} {v : Word} {m : Memory} (h : wfFrom lo ((b, v) :: m) = true)
    (hx : readWord ((b, v) :: m) x ≠ 0) : b ≤ x := by
  by_contra hlt
  obtain ⟨-, hb, hv, htail⟩ := wfFrom_cons_iff.1 h
  exact hx (readWord_below (wfFrom_cons_iff.2 ⟨le_rfl, hb, hv, htail⟩) (by omega))

/-- Canonical memories that read the same are the same list: the first listed address is the lowest that does not read 0,
and behind it the tails read the same again. -/
theorem eq_of_readWord_eq {m m' : Memory} {lo : Nat} (h : wfFrom lo m = true) (h' : wfFrom lo m' = true)
    (hread : ∀ x, m.readWord x = m'.readWord x) : m = m' := by
  induction m generalizing m' lo with
  | nil =>
    cases m' with
    | nil => rfl
    | cons c m' => exact absurd (hread c.1).symm (readWord_head_ne_zero h')
  | cons c m ih =>
    obtain ⟨a, w⟩ := c
    cases m' with
    | nil => exact absurd (hread a) (readWord_head_ne_zero h)
    | cons c' m' =>
      obtain ⟨b, v⟩ := c'
      have hba : b ≤ a := head_le_of_readWord_ne_zero h' (hread a ▸ readWord_head_ne_zero h)
      have hab : a ≤ b := head_le_of_readWord_ne_zero h (hread b ▸ readWord_head_ne_zero h')
      obtain rfl := Nat.le_antisymm hab hba
      have hwv : w = v := by simpa only [readWord_head] using hread a
      obtain ⟨-, -, -, htail⟩ := wfFrom_cons_iff.1 h
      obtain ⟨-, -, -, htail'⟩ := wfFrom_cons_iff.1 h'
      rw [hwv, ih htail htail' fun x => ?_]
      by_cases hx : x = a
      · rw [readWord_below htail (by omega), readWord_below htail' (by omega)]
      · rw [← readWord_tail w m hx, hread x, readWord_tail v m' hx]

/-- Settles O17: the canonical form from the lowest address on. -/
theorem equalReadsMeanEqualMemory : Obligations.EqualReadsMeanEqualMemory :=
  fun _ _ => eq_of_readWord_eq

end Sys2Proof.Machine.Memory
end

section
/-! SUPPORT. What no instruction does: the frames of memory, the stack and the channel, and how an instruction can end the
run (spec/20_memory.md section 1, spec/10_state.md sections 4 to 6, spec/60_exceptions.md R171 to R174). -/

namespace Sys2Proof.Machine

/-! ### Frames -/

/-- Settles O48: the one effect that reaches memory is wmem's store, and a step has an effect on memory only by the
instruction it fetched. -/
theorem onlyWmemChangesMemory : Obligations.OnlyWmemChangesMemory := by
  refine ⟨fun i s t hi h x => ?_, fun s t h hne => ?_⟩
  · obtain hm | ⟨a, b, hw, -⟩ := (exec_effect h).mem_eq_or_store
    · rw [hm]
    · exact absurd hw (hi a b)
  · obtain ⟨-, rfl⟩ | ⟨-, ⟨k, -, rfl⟩ | ⟨i, hi, he⟩⟩ := step_cases h
    · exact absurd rfl hne
    · exact absurd (s.takeFault_mem k) hne
    · obtain hm | ⟨a, b, rfl, -⟩ := (exec_effect he).mem_eq_or_store
      · exact absurd hm hne
      · exact ⟨a, b, hi⟩

/-- Settles O49: push and call append a word, pop and ret drop the last, and no other effect reaches the stack. -/
theorem stackChangesOnlyAtTop : Obligations.StackChangesOnlyAtTop := by
  intro i s t h
  cases exec_effect h with
  | push a v hi => exact .inr (.inl ⟨v, rfl, .inl ⟨a, hi⟩⟩)
  | call a q hi => exact .inr (.inl ⟨s.pc + 2, rfl, .inr ⟨a, hi⟩⟩)
  | pop a r st v hi _ hs => exact .inr (.inr ⟨v, hs, .inl ⟨a, hi⟩⟩)
  | ret st q hi hs => exact .inr (.inr ⟨q, hs, .inr hi⟩)
  | fault | stand | write | halted | jump | store | emitted | outFailed | waits | inFailed | delivered | charLost =>
    exact .inl rfl

/-- Every effect of an instruction other than `in` leaves the input side of the channel (R36). -/
theorem Effect.input_eq {i : Instr} {s t : State} (h : Effect i s t) (hi : ∀ a, i ≠ .in_ a) :
    t.inputBuf = s.inputBuf ∧ t.lineAnswers = s.lineAnswers ∧ t.freeCount = s.freeCount := by
  cases h with
  | waits a h | inFailed a _ h | delivered a _ _ _ _ h | charLost a _ _ h => exact absurd h (hi a)
  | fault | stand | write | halted | jump | push | pop | call | ret | store | emitted | outFailed => exact ⟨rfl, rfl, rfl⟩

/-- An effect leaves the output side of the channel, or it is `out`'s, which adds at most one byte at the end (R161). -/
theorem Effect.output_cases {i : Instr} {s t : State} (h : Effect i s t) :
    (t.output = s.output ∧ t.outAnswers = s.outAnswers) ∨
    ((∃ a, i = .out a) ∧ (t.output = s.output ∨ ∃ b, t.output = s.output ++ [b])) := by
  cases h with
  | emitted a b h => exact .inr ⟨⟨a, h⟩, .inr ⟨b, rfl⟩⟩
  | outFailed a h => exact .inr ⟨⟨a, h⟩, .inl rfl⟩
  | fault | stand | write | halted | jump | push | pop | call | ret | store | waits | inFailed | delivered | charLost =>
    exact .inl ⟨rfl, rfl⟩

/-- Settles O51: only `in`'s effects reach the input side, only `out`'s the output side. -/
theorem onlyInAndOutReachTheChannel : Obligations.OnlyInAndOutReachTheChannel := by
  intro i s t h
  refine ⟨(exec_effect h).input_eq, ?_⟩
  obtain ⟨hout, hans⟩ | ⟨⟨a, ha⟩, hout⟩ := (exec_effect h).output_cases
  · exact ⟨fun _ => ⟨hout, hans⟩, .inl hout⟩
  · exact ⟨fun hi => absurd ha (hi a), hout⟩

/-! ### The ends of a run -/

/-- Settles O52: a fetch fault changes the status alone, and an instruction's fault is what `FaultsAt` says. -/
theorem faultsArePrecise : Obligations.FaultsArePrecise := by
  intro s t kind p hs h hf
  obtain ⟨hterm, -⟩ | ⟨-, ⟨k, -, rfl⟩ | ⟨i, hi, he⟩⟩ := step_cases h
  · simp [hs, RunStatus.isTerminal] at hterm
  · simp only [State.takeFault_status, RunStatus.faulted.injEq] at hf
    exact ⟨hf.2.symm, rfl, rfl, rfl, rfl, rfl, fun _ => rfl⟩
  · obtain ⟨hfault, hp⟩ := (exec_effect he).faultsAt hs hf
    exact ⟨hp, hfault.pc, hfault.regs, hfault.mem, hfault.stack, hfault.output,
      fun hin => hfault.inputBuf fun a ha => hin a (ha ▸ hi)⟩

/-- Settles O53: the effect of a faulting instruction names its kind, and the fetch unit knows two. -/
theorem faultKindsPerInstruction : Obligations.FaultKindsPerInstruction :=
  ⟨fun _ _ _ _ _ hs h hf => ((exec_effect h).faultsAt hs hf).1.may, fun _ _ _ => fetch_error⟩

/-- Settles O54: of a running core's ends, a fetch fault and an instruction's fault are not Halted, and the one effect
that halts is halt's and the empty ret's. -/
theorem haltedOnlyByHaltOrEmptyRet : Obligations.HaltedOnlyByHaltOrEmptyRet := by
  intro s t hs h ht
  obtain ⟨hterm, -⟩ | ⟨-, ⟨k, -, rfl⟩ | ⟨i, hi, he⟩⟩ := step_cases h
  · simp [hs, RunStatus.isTerminal] at hterm
  · simp at ht
  · obtain hst | ⟨-, rfl | ⟨rfl, hempty⟩⟩ | ⟨k, hfault⟩ := (exec_effect he).status_cases
    · simp [hst, hs] at ht
    · exact .inl hi
    · exact .inr ⟨hi, hempty⟩
    · simp [hfault.status] at ht

end Sys2Proof.Machine
end

section
/-! SUPPORT. The conditional jumps, call and ret (spec/44_control_transfer.md R136 to R139), and the build whose stack is
bounded (spec/60_exceptions.md R188). -/

namespace Sys2Proof.Machine

/-! ### jt and jf -/

/-- A branch whose test holds goes to its target operand, which is resolved after the pc has advanced. -/
theorem branchHandler_taken {taken : Word → Bool} {a : Operand} (b : Operand) {s : State} {v : Word}
    (hv : resolve s a = .ok v) (ht : taken v = true) : branchHandler taken a b s = jumpOperand (s.advance 3) b := by
  simp only [branchHandler, hv, ok_bind, if_pos ht]

theorem branchHandler_of_lt {taken : Word → Bool} {a b : Operand} {s : State} {v q : Word} (hv : resolve s a = .ok v)
    (ht : taken v = true) (hb : resolve s b = .ok q) (hq : q.toNat < 32768) :
    branchHandler taken a b s = .ok ((s.advance 3).setPc q) :=
  (branchHandler_taken b hv ht).trans (jumpOperand_of_lt ((resolve_advance s 3 b).trans hb) hq)

theorem branchHandler_of_le {taken : Word → Bool} {a b : Operand} {s : State} {v q : Word} (hv : resolve s a = .ok v)
    (ht : taken v = true) (hb : resolve s b = .ok q) (hq : 32768 ≤ q.toNat) :
    branchHandler taken a b s = .error .addressOutOfRange :=
  (branchHandler_taken b hv ht).trans (jumpOperand_of_le ((resolve_advance s 3 b).trans hb) hq)

theorem branchHandler_of_isInvalid_target {taken : Word → Bool} {a b : Operand} {s : State} {v : Word}
    (hv : resolve s a = .ok v) (ht : taken v = true) (hb : b.isInvalid = true) :
    branchHandler taken a b s = .error .invalidOperand :=
  (branchHandler_taken b hv ht).trans (jumpOperand_of_isInvalid _ hb)

theorem branchHandler_of_isInvalid (taken : Word → Bool) {a : Operand} (b : Operand) (s : State)
    (ha : a.isInvalid = true) : branchHandler taken a b s = .error .invalidOperand := by
  simp only [branchHandler, resolve_of_isInvalid ha, error_bind]

theorem exec_jt (a b : Operand) (s : State) : exec (.jt a b) s = complete s (branchHandler isNonzero a b s) := rfl

theorem exec_jf (a b : Operand) (s : State) :
    exec (.jf a b) s = complete s (branchHandler (fun v => !isNonzero v) a b s) := rfl

/-- Settles O26: jt is the branch whose test holds of every word but 0. -/
theorem jtJumpsOnNonzero : Obligations.JtJumpsOnNonzero := by
  refine fun a b s => ⟨rfl, fun v t ha hv hb ht => ?_, fun ha => ?_, fun ha => ?_, fun v ha hv hb => ?_,
    fun v t ha hv hb ht => ?_⟩
  · exact exec_of_handler_ok (exec_jt a b s) (branchHandler_of_lt ha (isNonzero_of_ne hv) hb ht)
  · exact exec_of_handler_ok (exec_jt a b s) (branchHandler_untaken b ha isNonzero_zero)
  · exact raises_of_handler_error (exec_jt a b s) (branchHandler_of_isInvalid _ b s ha)
  · exact raises_of_handler_error (exec_jt a b s) (branchHandler_of_isInvalid_target ha (isNonzero_of_ne hv) hb)
  · exact raises_of_handler_error (exec_jt a b s) (branchHandler_of_le ha (isNonzero_of_ne hv) hb ht)

/-- Settles O27: jf is the branch whose test holds of 0 alone. -/
theorem jfJumpsOnZero : Obligations.JfJumpsOnZero := by
  have hzero : (!isNonzero 0) = true := rfl
  refine fun a b s => ⟨rfl, fun t ha hb ht => ?_, fun v ha hv => ?_, fun ha => ?_, fun ha hb => ?_,
    fun t ha hb ht => ?_⟩
  · exact exec_of_handler_ok (exec_jf a b s) (branchHandler_of_lt ha hzero hb ht)
  · exact exec_of_handler_ok (exec_jf a b s) (branchHandler_untaken b ha (by simp [isNonzero_of_ne hv]))
  · exact raises_of_handler_error (exec_jf a b s) (branchHandler_of_isInvalid _ b s ha)
  · exact raises_of_handler_error (exec_jf a b s) (branchHandler_of_isInvalid_target ha hzero hb)
  · exact raises_of_handler_error (exec_jf a b s) (branchHandler_of_le ha hzero hb ht)

/-! ### call -/

/-- The stack of this hardware is unbounded (R6). -/
theorem exec_call (a : Operand) (s : State) : exec (.call a) s = complete s (callHandler none a s) := rfl

/-- A call whose target is in range is the push of the next instruction's address from the target (R138). -/
theorem callHandler_of_lt (capacity : Option Nat) {a : Operand} {s : State} {t : Word} (ha : resolve s a = .ok t)
    (ht : t.toNat < 32768) :
    callHandler capacity a s = pushWord capacity ((s.advance 2).setPc t) (s.pc + 2) := by
  simp only [callHandler, jumpOperand_of_lt ((resolve_advance s 2 a).trans ha) ht, ok_bind]
  rfl

theorem callHandler_of_le (capacity : Option Nat) {a : Operand} {s : State} {t : Word} (ha : resolve s a = .ok t)
    (ht : 32768 ≤ t.toNat) : callHandler capacity a s = .error .addressOutOfRange := by
  simp only [callHandler, jumpOperand_of_le ((resolve_advance s 2 a).trans ha) ht, error_bind]

theorem callHandler_of_isInvalid (capacity : Option Nat) {a : Operand} (s : State) (ha : a.isInvalid = true) :
    callHandler capacity a s = .error .invalidOperand := by
  simp only [callHandler, jumpOperand_of_isInvalid _ ha, error_bind]

theorem exec_call_of_lt {a : Operand} {s : State} {t : Word} (ha : resolve s a = .ok t) (ht : t.toNat < 32768) :
    exec (.call a) s = .next (((s.advance 2).setPc t).setStack (s.stack ++ [s.pc + 2])) :=
  exec_of_handler_ok (exec_call a s) (callHandler_of_lt none ha ht)

/-- Settles O28: the target decides before anything is pushed, and its fault is taken at the state before the step. -/
theorem callPushesReturnAddress : Obligations.CallPushesReturnAddress := by
  refine fun a s => ⟨rfl, fun t ha ht => exec_call_of_lt ha ht, fun ha => ?_, fun t ha ht => ?_⟩
  · exact raises_of_handler_error (exec_call a s) (callHandler_of_isInvalid none s ha)
  · exact ⟨_, exec_of_handler_error (exec_call a s) (callHandler_of_le none ha ht), s.takeFault_status _,
      s.takeFault_stack _⟩

/-! ### ret -/

theorem exec_ret_empty {s : State} (hs : s.stack = []) : exec .ret s = .next (s.advance 1).enterHalted := by
  simp only [exec, execRet, if_pos hs, complete, settle_ok]

/-- On a stack that is not empty, ret goes to the top word over the rest of the stack. -/
theorem exec_ret_append {s : State} {st : List Word} {t : Word} (hs : s.stack = st ++ [t]) :
    exec .ret s = complete s (jumpTo ((s.advance 1).setStack st) t) := by
  have htop : popWord (s.advance 1) = .ok (t, (s.advance 1).setStack st) :=
    popWord_append (by rw [State.advance_stack, hs])
  have hne : s.stack ≠ [] := by simp [hs]
  simp only [exec, execRet, if_neg hne, retHandler, htop, ok_bind]

theorem exec_ret_of_lt {s : State} {st : List Word} {t : Word} (hs : s.stack = st ++ [t]) (ht : t.toNat < 32768) :
    exec .ret s = .next (((s.advance 1).setStack st).setPc t) :=
  exec_of_handler_ok (exec_ret_append hs) (jumpTo_of_lt _ ht)

/-- Settles O29: the stack decides whether the run ends, then the top word whether there is a fault. -/
theorem retPopsOrHalts : Obligations.RetPopsOrHalts := by
  refine ⟨rfl, fun s => ⟨exec_ret_empty, fun st t hs ht => exec_ret_of_lt hs ht, fun st t hs ht => ?_⟩⟩
  exact ⟨_, exec_of_handler_error (exec_ret_append hs) (jumpTo_of_le _ ht), s.takeFault_status _, s.takeFault_stack _⟩

/-- Settles O30: the top word the call left is the next address, in range and so a valid target of ret. -/
theorem callThenRetResumesAfterCall : Obligations.CallThenRetResumesAfterCall := by
  intro a s target ha ht hpc
  refine ⟨_, exec_call_of_lt ha ht, rfl, fun u hu => ?_⟩
  have hret : (s.pc + 2).toNat < 32768 := (pc_add_toNat (n := 2) (by omega)).trans_lt hpc
  exact exec_ret_of_lt hu hret

/-! ### The bounded stack -/

theorem isInvalid_of_resolve_ok {s : State} {a : Operand} {v : Word} (ha : resolve s a = .ok v) : a.isInvalid = false := by
  cases hi : a.isInvalid with
  | false => rfl
  | true => simp [resolve_of_isInvalid hi] at ha

/-- Below its capacity a bounded stack takes a word as an unbounded one does (R188). -/
theorem pushWord_below {k : Nat} {s : State} (v : Word) (hk : s.stack.length < k) :
    pushWord (some k) s v = pushWord none s v :=
  if_neg (by simp [stackFull, hk])

/-- Settles O55: the two handlers reach the stack by `pushWord` alone, call after its target's check. -/
theorem boundedStackOverflows : Obligations.BoundedStackOverflows := by
  refine fun a s v k ha => ⟨fun hk => ?_, fun hk hv => ?_, fun hv => ?_, fun hk => ⟨?_, ?_⟩⟩
  · exact pushHandler_full (isInvalid_of_resolve_ok ha) hk
  · exact (callHandler_of_lt (some k) ha hv).trans (pushWord_full _ hk)
  · exact callHandler_of_le (some k) ha hv
  · have hpush : pushHandler (some k) a s = pushHandler none a s := by
      simp only [pushHandler, ha, ok_bind, pushWord_below (s := s.advance 2) v hk]
    rw [exec_push, hpush]
  · have hcall : callHandler (some k) a s = callHandler none a s := by
      obtain hv | hv := Nat.lt_or_ge v.toNat 32768
      · rw [callHandler_of_lt _ ha hv, callHandler_of_lt _ ha hv]
        exact pushWord_below (s := (s.advance 2).setPc v) _ hk
      · rw [callHandler_of_le _ ha hv, callHandler_of_le _ ha hv]
    rw [exec_call, hcall]

end Sys2Proof.Machine
end

section
/-! SUPPORT. gt, mod, and, or and not, and the range of the reduced results (spec/43_compare.md R131, spec/45_alu.md R145,
R148 to R151). -/

namespace Sys2Proof.Machine

/-! ### gt, and, or -/

theorem exec_gt (a b c : Operand) (s : State) :
    exec (.gt a b c) s = complete s (binaryOp (fun x y => .ok (boolWord (decide (y.toNat < x.toNat)))) a b c s) := rfl

theorem exec_and (a b c : Operand) (s : State) :
    exec (.and a b c) s = complete s (binaryOp (fun x y => .ok (x &&& y)) a b c s) := rfl

theorem exec_or (a b c : Operand) (s : State) :
    exec (.or a b c) s = complete s (binaryOp (fun x y => .ok (x ||| y)) a b c s) := rfl

/-- Settles O24: gt is the format W3 shape with the Boolean result of the unsigned comparison written. -/
theorem gtWritesOneIffGreaterUnsigned : Obligations.GtWritesOneIffGreaterUnsigned := by
  have hrule : ThreeOperandRule 5 .gt fun x y => boolWord (decide (y.toNat < x.toNat)) :=
    threeOperandRule_of_binaryOp (fun _ _ _ => rfl) exec_gt
  simpa only [Obligations.GtWritesOneIffGreaterUnsigned, boolWord_decide, gt_iff_lt] using hrule

/-- Settles O34: and is the format W3 shape with the bitwise AND written as it is. -/
theorem andWritesSixteenBitAnd : Obligations.AndWritesSixteenBitAnd :=
  threeOperandRule_of_binaryOp (fun _ _ _ => rfl) exec_and

/-- Settles O35: or is the format W3 shape with the bitwise OR written as it is. -/
theorem orWritesSixteenBitOr : Obligations.OrWritesSixteenBitOr :=
  threeOperandRule_of_binaryOp (fun _ _ _ => rfl) exec_or

/-! ### mod -/

theorem exec_mod (a b c : Operand) (s : State) : exec (.mod a b c) s = complete s (binaryOp modWords a b c s) := rfl

theorem modWords_zero (x : Word) : modWords x 0 = .error .divideByZero := rfl

theorem modWords_of_ne (x : Word) {y : Word} (hy : y ≠ 0) : modWords x y = .ok (BitVec.ofNat 16 (x.toNat % y.toNat)) :=
  if_neg fun h => hy (BitVec.eq_of_toNat_eq h)

/-- In the format W3 shape a fault of the computation comes before the destination is looked at (decision D6). -/
theorem binaryOp_of_error {f : Word → Word → Except FaultKind Word} (a : Operand) {b c : Operand} {s : State}
    {vb vc : Word} {k : FaultKind} (hb : resolve s b = .ok vb) (hc : resolve s c = .ok vc) (hf : f vb vc = .error k) :
    binaryOp f a b c s = .error k := by
  simp only [binaryOp, hb, hc, hf, ok_bind, error_bind]

/-- Settles O33: mod is the format W3 shape with a computation that faults on a zero divisor alone. -/
theorem modWritesExactRemainder : Obligations.ModWritesExactRemainder := by
  refine fun a b c s => ⟨rfl, fun r vb vc ha hb hc hne => ?_, fun h => ?_, fun hb hc => ?_, fun vc hb hc hne ha => ?_⟩
  · subst ha
    exact exec_of_handler_ok (exec_mod _ b c s) (binaryOp_register r hb hc (modWords_of_ne vb hne))
  · exact raises_of_handler_error (exec_mod a b c s) (binaryOp_of_isInvalid _ a s h)
  · obtain ⟨vb, hvb⟩ := resolve_ok_of_not_isInvalid s hb
    exact raises_of_handler_error (exec_mod a b c s) (binaryOp_of_error a hvb hc (modWords_zero vb))
  · obtain ⟨vb, hvb⟩ := resolve_ok_of_not_isInvalid s hb
    exact raises_of_handler_error (exec_mod a b c s) (binaryOp_of_not_isRegister hvb hc (modWords_of_ne vb hne) ha)

/-! ### not -/

theorem exec_not (a b : Operand) (s : State) :
    exec (.not a b) s = complete s (unaryOp (fun x => .ok (notWord x)) a b s) := rfl

/-- Masking the 16-bit complement to 15 bits is the complement of the low 15 bits, with no borrow. -/
theorem notWord_toNat (x : Word) : (notWord x).toNat = 32767 - x.toNat % 32768 := by
  have hmask : (notWord x).toNat = (65535 - x.toNat) % 2 ^ 15 :=
    (BitVec.toNat_and _ _).trans (by rw [BitVec.toNat_not]; exact Nat.and_two_pow_sub_one_eq_mod _ 15)
  have hx := x.isLt
  omega

theorem notWord_eq (x : Word) : notWord x = BitVec.ofNat 16 (32767 - x.toNat % 32768) :=
  BitVec.eq_of_toNat_eq (by rw [notWord_toNat, BitVec.toNat_ofNat]; omega)

/-- Settles O36: not is the format W2 shape with `notWord` written. -/
theorem notWritesFifteenBitComplement : Obligations.NotWritesFifteenBitComplement := by
  have hrule : TwoOperandRule 14 .not fun v => notWord v := twoOperandRule_of_unaryOp (fun _ _ => rfl) exec_not
  simpa only [Obligations.NotWritesFifteenBitComplement, notWord_eq] using hrule

/-! ### The range of the reduced results -/

theorem addWords_toNat_lt (x y : Word) : (addWords x y).toNat < 32768 := by
  rw [addWords_eq, BitVec.toNat_ofNat]
  omega

theorem multWords_toNat_lt (x y : Word) : (multWords x y).toNat < 32768 := by
  rw [multWords_eq, BitVec.toNat_ofNat]
  omega

theorem notWord_toNat_lt (x : Word) : (notWord x).toNat < 32768 := by
  rw [notWord_toNat]
  omega

/-- An instruction that ends still running ended in its handler's state: a fault would have stopped the core. -/
theorem handler_ok_of_running {s t : State} {handler : Except FaultKind State} (h : complete s handler = .next t)
    (ht : t.status = .running) : handler = .ok t := by
  obtain e | ⟨k, -, rfl⟩ := complete_next h
  · exact e
  · simp at ht

theorem binaryOp_readReg {f : Word → Word → Word} {r : Fin 8} {b c : Operand} {s t : State}
    (h : binaryOp (fun x y => .ok (f x y)) (.register r) b c s = .ok t) : ∃ x y, t.readReg r = f x y := by
  obtain ⟨r', x, y, v, hr, -, -, hv, rfl⟩ := binaryOp_ok h
  obtain rfl := Operand.register.inj hr
  exact ⟨x, y, (State.writeReg_readReg_self _ r v).trans (Except.ok.inj hv).symm⟩

theorem unaryOp_readReg {f : Word → Word} {r : Fin 8} {b : Operand} {s t : State}
    (h : unaryOp (fun x => .ok (f x)) (.register r) b s = .ok t) : ∃ x, t.readReg r = f x := by
  obtain ⟨r', x, v, hr, -, hv, rfl⟩ := unaryOp_ok h
  obtain rfl := Operand.register.inj hr
  exact ⟨x, (State.writeReg_readReg_self _ r v).trans (Except.ok.inj hv).symm⟩

/-- Settles O37: what stands in the destination is a value of `addWords`, `multWords` or `notWord`, all below 32768. -/
theorem addMultNotResultsAreFifteenBits : Obligations.AddMultNotResultsAreFifteenBits := by
  rintro r b c s t i (rfl | rfl | rfl) - h ht
  · obtain ⟨x, y, hxy⟩ := binaryOp_readReg (f := addWords) (handler_ok_of_running h ht)
    exact hxy ▸ addWords_toNat_lt x y
  · obtain ⟨x, y, hxy⟩ := binaryOp_readReg (f := multWords) (handler_ok_of_running h ht)
    exact hxy ▸ multWords_toNat_lt x y
  · obtain ⟨x, hx⟩ := unaryOp_readReg (f := notWord) (handler_ok_of_running h ht)
    exact hx ▸ notWord_toNat_lt x

end Sys2Proof.Machine
end

section
/-! SUPPORT. A stored word read back by rmem and by the next fetch (spec/46_memory_access.md, spec/20_memory.md R65, R66),
and the rest of in and out: their faults, the wait for a line and the byte with no listed answer (spec/47_io.md R160 to
R166, spec/60_exceptions.md R182, R184). -/

namespace Sys2Proof.Machine

/-! ### A stored word read back -/

/-- What wmem leaves at the address it stores to is the stored word (R156). -/
theorem State.storeWord_readWord_self {s : State} (a : Nat) (v : Word) (hwf : s.mem.wf = true) :
    (s.storeWord a v).mem.readWord a = v :=
  (Memory.readWord_writeWord hwf a a v).trans (if_pos rfl)

/-- Settles O40: the read of the address wmem stored to gives the stored word. -/
theorem wmemThenRmemYieldsValue : Obligations.WmemThenRmemYieldsValue := by
  intro a b c r s ea v hwf ha hb hea
  refine ⟨_, exec_wmem_of_lt ha hb hea, fun hc => ?_⟩
  have hread : memRead ((s.advance 3).storeWord ea.toNat v) ea = .ok v :=
    (memRead_of_lt _ hea).trans (congrArg Except.ok ((s.advance 3).storeWord_readWord_self ea.toNat v hwf))
  exact exec_of_handler_ok (exec_rmem _ c _) (unaryOp_register r hc hread)

/-- Settles O41: the step runs the wmem whose words stood at pc before it, and a fetch after it takes its opcode from what
the address then reads as. -/
theorem storeIsSeenByNextFetch : Obligations.StoreIsSeenByNextFetch := by
  intro a b s ea v hinv hs hwf hholds ha hb hea
  have hsame := (s.advance 3).storeWord_readWord_self ea.toNat v hinv.memory
  exact ⟨_, (step_of_fetch_ok hs (fetch_of_holdsAtPc hwf hholds)).trans (exec_wmem_of_lt ha hb hea), rfl, hsame,
    fun i hi => (fetch_opcode hea hi).trans hsame⟩

/-! ### in -/

theorem exec_in_wait (a : Operand) {s : State} (h : nextInputChar s = .wait) : exec (.in_ a) s = .next s := by
  simp only [exec, execIn, inEffect, h]

theorem raises_in_of_failed (a : Operand) {s u : State} (h : nextInputChar s = .failed u) :
    Raises (.in_ a) s .ioError :=
  ⟨u.takeFault .ioError, by simp only [exec, execIn, inEffect, h], u.takeFault_faultedWith .ioError⟩

/-- A character with no register to go to is lost, and the buffer behind it is unspecified (R162, decision D23). -/
theorem exec_in_of_not_isRegister {a : Operand} {s u : State} {ch : Word} (h : nextInputChar s = .char ch u)
    (ha : a.isRegister = false) : exec (.in_ a) s = .next (u.freeInput.takeFault .invalidDestination) := by
  simp only [exec, execIn, inEffect, h, deliverChar, writeDest_of_not_isRegister ch ha]

theorem nextInputChar_wait {s : State} (hb : s.inputBuf = []) (hl : s.lineAnswers = []) : nextInputChar s = .wait := by
  simp only [nextInputChar, hb, hl]

/-- End of stream and a channel error come to the same (R164, R165). -/
theorem nextInputChar_failed {s : State} {answers : List LineAnswer} (hb : s.inputBuf = [])
    (hl : s.lineAnswers = .endOfStream :: answers ∨ s.lineAnswers = .channelError :: answers) :
    nextInputChar s = .failed (s.setInput [] answers) := by
  obtain hl | hl := hl <;> simp only [nextInputChar, hb, hl]

/-- Settles O43: what `NextInputChar()` comes to, and for a character whether the destination is a register. -/
theorem inWritesNextCharacter : Obligations.InWritesNextCharacter := by
  refine fun a s => ⟨rfl, fun r ch buf ha hb => ?_, fun r ch buf answers ha hb hl => ?_, fun answers hb hl => ?_,
    fun ch buf answers ha h => ?_⟩
  · subst ha
    exact exec_in_register r (nextInputChar_buffered hb)
  · subst ha
    exact exec_in_register r (nextInputChar_line hb hl)
  · exact raises_in_of_failed a (nextInputChar_failed hb hl)
  · obtain ⟨lines, hchar⟩ : ∃ lines, nextInputChar s = .char ch (s.setInput buf lines) := by
      obtain hb | ⟨hb, hl⟩ := h
      · exact ⟨_, nextInputChar_buffered hb⟩
      · exact ⟨_, nextInputChar_line hb hl⟩
    exact ⟨_, exec_in_of_not_isRegister hchar ha, rfl, rfl, rfl, rfl, rfl⟩

/-! ### Requests the host has not answered -/

/-- A core that awaits a line runs, stands at an `in`, and has nothing to take a character from (R184). -/
theorem State.awaitsLine_cases {s : State} (h : s.awaitsLine = true) :
    s.status = .running ∧ (∃ a, fetch s.mem s.pc = .ok (.in_ a)) ∧ s.inputBuf = [] ∧ s.lineAnswers = [] := by
  unfold State.awaitsLine at h
  split at h
  · next hs hf hb hl => exact ⟨hs, ⟨_, hf⟩, hb, hl⟩
  · cases h

/-- Once a line is delivered, the `in` that needs it takes its first code and buffers the others. -/
theorem exec_in_deliverLine (r : Fin 8) (ch : Word) (buf : List Word) {s : State} (hb : s.inputBuf = [])
    (hl : s.lineAnswers = []) :
    exec (.in_ (.register r)) (s.deliverLine (.line ch buf)) =
      .next { s with regs := s.regs.set r ch, inputBuf := buf, pc := s.pc + 2 } := by
  have hline : (s.deliverLine (.line ch buf)).lineAnswers = .line ch buf :: s.lineAnswers := by
    simp only [State.deliverLine_lineAnswers, hl, List.nil_append]
  exact exec_in_register r (nextInputChar_line (s := s.deliverLine _) hb hline)

theorem State.outputAnswer_of_nil {s : State} (h : s.outAnswers = []) : s.outputAnswer = .ok := by
  rw [State.outputAnswer, h, List.headD_nil]

theorem State.takeOutputAnswer_of_nil {s : State} (h : s.outAnswers = []) : s.takeOutputAnswer = s := by
  rw [State.takeOutputAnswer, h, List.tail_nil, ← h]

/-- Settles O44: with nothing to take, `in` waits; a delivered line is the next answer to it, text by its codes; and the
next answer to a byte is the accepting one until the host lists another. -/
theorem unansweredRequests : Obligations.UnansweredRequests := by
  refine fun a s => ⟨fun hb hl => exec_in_wait a (nextInputChar_wait hb hl), fun h => ?_,
    fun r ch buf hb hl => exec_in_deliverLine r ch buf hb hl, fun r c cs hb hl => exec_in_deliverLine r _ _ hb hl,
    fun v ha hv h => ⟨?_, ?_⟩⟩
  · obtain ⟨hs, ⟨b, hf⟩, hb, hl⟩ := State.awaitsLine_cases h
    exact (step_of_fetch_ok hs hf).trans (exec_in_wait b (nextInputChar_wait hb hl))
  · rw [exec_out_of_accepted ha hv (State.outputAnswer_of_nil h), State.takeOutputAnswer_of_nil h]
    rfl
  · have hans : (s.answerOutput .channelError).outAnswers = [.channelError] := by
      rw [State.answerOutput_outAnswers, h, List.nil_append]
    exact raises_out_of_channelError ((resolve_congr rfl a).trans ha) hv (State.outputAnswer_of_cons hans)

end Sys2Proof.Machine
end

section
/-! SUPPORT. Words put below a stack that is not empty: every operation commutes with putting them there, and so does every
instruction (spec/10_state.md section 4). -/

namespace Sys2Proof.Machine

/-- The same state with more words below its stack. -/
def State.under (below : List Word) (s : State) : State := { s with stack := below ++ s.stack }

/-! ### The shared operations -/

@[simp] theorem State.under_advance (below : List Word) (s : State) (n : Nat) :
    (s.under below).advance n = (s.advance n).under below := rfl

/-- Operands are resolved from the registers. -/
@[simp] theorem resolve_under (below : List Word) (s : State) (o : Operand) :
    resolve (s.under below) o = resolve s o :=
  resolve_congr rfl o

theorem map_bind {α : Type} (g : State → State) (x : Except FaultKind α) (f : α → Except FaultKind State) :
    (x >>= f).map g = x >>= fun a => (f a).map g := by
  cases x <;> rfl

@[simp] theorem writeDest_under (below : List Word) (s : State) (a : Operand) (v : Word) :
    writeDest (s.under below) a v = (writeDest s a v).map (State.under below) := by
  cases a <;> rfl

@[simp] theorem memWrite_under (below : List Word) (s : State) (ea v : Word) :
    memWrite (s.under below) ea v = (memWrite s ea v).map (State.under below) := by
  obtain h | h := Nat.lt_or_ge ea.toNat 32768
  · rw [memWrite_of_lt _ v h, memWrite_of_lt _ v h]; rfl
  · rw [memWrite_of_le _ v h, memWrite_of_le _ v h]; rfl

@[simp] theorem jumpTo_under (below : List Word) (s : State) (t : Word) :
    jumpTo (s.under below) t = (jumpTo s t).map (State.under below) := by
  obtain h | h := Nat.lt_or_ge t.toNat 32768
  · rw [jumpTo_of_lt _ h, jumpTo_of_lt _ h]; rfl
  · rw [jumpTo_of_le _ h, jumpTo_of_le _ h]; rfl

/-- A push is at the top, away from the words below. -/
@[simp] theorem pushWord_none_under (below : List Word) (s : State) (v : Word) :
    pushWord none (s.under below) v = (pushWord none s v).map (State.under below) := by
  simp [Except.map, State.under, State.setStack]

/-- The top of the stack is the same word as before, and under it there are more. -/
theorem State.under_stack_append (below : List Word) {s : State} {st : List Word} {v : Word} (hs : s.stack = st ++ [v]) :
    (s.under below).stack = (below ++ st) ++ [v] := by
  rw [State.under, hs, List.append_assoc]

/-! ### The handlers -/

theorem unaryOp_under (f : Word → Except FaultKind Word) (a b : Operand) (below : List Word) (s : State) :
    unaryOp f a b (s.under below) = (unaryOp f a b s).map (State.under below) := by
  simp only [unaryOp, resolve_under, State.under_advance, writeDest_under, map_bind]

theorem binaryOp_under (f : Word → Word → Except FaultKind Word) (a b c : Operand) (below : List Word) (s : State) :
    binaryOp f a b c (s.under below) = (binaryOp f a b c s).map (State.under below) := by
  simp only [binaryOp, resolve_under, State.under_advance, writeDest_under, map_bind]

theorem wmemHandler_under (a b : Operand) (below : List Word) (s : State) :
    wmemHandler a b (s.under below) = (wmemHandler a b s).map (State.under below) := by
  simp only [wmemHandler, resolve_under, State.under_advance, memWrite_under, map_bind]

theorem pushHandler_none_under (a : Operand) (below : List Word) (s : State) :
    pushHandler none a (s.under below) = (pushHandler none a s).map (State.under below) := by
  simp only [pushHandler, resolve_under, State.under_advance, pushWord_none_under, map_bind]

@[simp] theorem jumpOperand_under (a : Operand) (below : List Word) (s : State) :
    jumpOperand (s.under below) a = (jumpOperand s a).map (State.under below) := by
  simp only [jumpOperand, resolve_under, jumpTo_under, map_bind]

theorem branchHandler_under (taken : Word → Bool) (a b : Operand) (below : List Word) (s : State) :
    branchHandler taken a b (s.under below) = (branchHandler taken a b s).map (State.under below) := by
  simp only [branchHandler, resolve_under, State.under_advance, jumpOperand_under, map_bind]
  congr 1
  funext v
  split <;> rfl

theorem callHandler_none_under (a : Operand) (below : List Word) (s : State) :
    callHandler none a (s.under below) = (callHandler none a s).map (State.under below) := by
  simp only [callHandler, State.under_advance, jumpOperand_under, map_bind]
  cases jumpOperand (s.advance 2) a with
  | error k => rfl
  | ok u => exact pushWord_none_under below u _

theorem popHandler_under (a : Operand) (below : List Word) {s : State} (hs : s.stack ≠ []) :
    popHandler a (s.under below) = (popHandler a s).map (State.under below) := by
  obtain ⟨st, v, hst⟩ := (List.eq_nil_or_concat' s.stack).resolve_left hs
  rw [popHandler_append a hst, popHandler_append a (State.under_stack_append below hst)]
  exact writeDest_under below ((s.advance 2).setStack st) a v

/-! ### The channel -/

theorem emit_under (v : Byte) (below : List Word) (s : State) : emit (s.under below) v = (emit s v).under below := by
  cases h : s.outputAnswer with
  | ok => rw [emit_of_ok v h, emit_of_ok (s := s.under below) v h]; rfl
  | channelError => rw [emit_of_channelError v h, emit_of_channelError (s := s.under below) v h]; rfl

theorem outEffect_under (a : Operand) (below : List Word) (s : State) :
    outEffect a (s.under below) = (outEffect a s).under below := by
  have hbyte : outByte (s.under below) a = outByte s a := by simp only [outByte, resolve_under]
  simp only [outEffect, hbyte]
  cases outByte s a with
  | ok v => exact emit_under v below s
  | error k => rfl

theorem deliverChar_under (a : Operand) (ch : Word) (below : List Word) (s : State) :
    deliverChar (s.under below) a ch = (deliverChar s a ch).under below := by
  cases a <;> rfl

theorem inEffect_under (a : Operand) (below : List Word) (s : State) :
    inEffect a (s.under below) = (inEffect a s).under below := by
  cases hb : s.inputBuf with
  | cons ch buf =>
    simp only [inEffect, nextInputChar_buffered hb, nextInputChar_buffered (s := s.under below) hb]
    exact deliverChar_under a ch below (s.setInput buf s.lineAnswers)
  | nil =>
    cases hl : s.lineAnswers with
    | nil => simp only [inEffect, nextInputChar_wait hb hl, nextInputChar_wait (s := s.under below) hb hl]
    | cons answer answers =>
      cases answer with
      | line ch buf =>
        simp only [inEffect, nextInputChar_line hb hl, nextInputChar_line (s := s.under below) hb hl]
        exact deliverChar_under a ch below (s.setInput buf answers)
      | endOfStream =>
        simp only [inEffect, nextInputChar_failed hb (.inl hl), nextInputChar_failed (s := s.under below) hb (.inl hl)]
        rfl
      | channelError =>
        simp only [inEffect, nextInputChar_failed hb (.inr hl), nextInputChar_failed (s := s.under below) hb (.inr hl)]
        rfl

/-! ### Every instruction -/

/-- An instruction commutes with words below the stack when its handler does. -/
theorem complete_under {below : List Word} {s t : State} {handler handler' : Except FaultKind State}
    (hh : handler' = handler.map (State.under below)) (h : complete s handler = .next t) :
    complete (s.under below) handler' = .next (t.under below) := by
  subst hh
  cases handler <;> cases h <;> rfl

/-- Settles O50: every handler commutes with words below the stack; pop and ret do because the stack has a top. -/
theorem entriesBelowTopAreNotRead : Obligations.EntriesBelowTopAreNotRead := by
  intro i s t below hs h
  change exec i (s.under below) = .next (t.under below)
  cases i with
  | halt | noop => cases h; rfl
  | set a b | not a b => exact complete_under (unaryOp_under _ a b below s) h
  | rmem a b => exact complete_under (unaryOp_under (memRead s) a b below s) h
  | eq a b c | gt a b c | add a b c | mult a b c | mod a b c | and a b c | or a b c =>
    exact complete_under (binaryOp_under _ a b c below s) h
  | wmem a b => exact complete_under (wmemHandler_under a b below s) h
  | push a => exact complete_under (pushHandler_none_under a below s) h
  | pop a => exact complete_under (popHandler_under a below hs) h
  | jmp a => exact complete_under (jumpOperand_under a below (s.advance 2)) h
  | jt a b | jf a b => exact complete_under (branchHandler_under _ a b below s) h
  | call a => exact complete_under (callHandler_none_under a below s) h
  | ret =>
    obtain ⟨st, v, hst⟩ := (List.eq_nil_or_concat' s.stack).resolve_left hs
    rw [exec_ret_append hst] at h
    rw [exec_ret_append (State.under_stack_append below hst)]
    exact complete_under (jumpTo_under below ((s.advance 1).setStack st) v) h
  | out a => cases h; exact congrArg Host.Outcome.next (outEffect_under a below s)
  | in_ a => cases h; exact congrArg Host.Outcome.next (inEffect_under a below s)

end Sys2Proof.Machine
end
